-- ==== Sys2Proof/Word.lean ====
section
/-! DEFINITION. The words of the machine: bytes, instruction words and data-space addresses. -/

namespace Sys2Proof

/-- One byte: the unit of the data space and the width of every register (rules R9, R16). -/
abbrev Byte := BitVec 8

/-- One instruction word (rule R37). -/
abbrev IWord := BitVec 16

/-- A data-space address or pointer value, in the widest form the spec has (rule R15: 24 bits).
A device of pointer width 8 or 16 uses only the addresses below `2^8` or `2^16`; the pointer
operations of `Machine/Operands.lean` keep the upper bits zero there. -/
abbrev Addr := BitVec 24

end Sys2Proof
end

