-- ==== Sys2Proof/Syntax.lean ====
section
/-! DEFINITION. The four forms of the instruction as decoded shapes (rules R2, R43). -/

namespace Sys2Proof

/-- The number of a general register, 0 to 31 (rule R9; operand range of rule R47). -/
abbrev RegIdx := Fin 32

/-- The source's labels of the four forms, the fourth spelled `(iiii)` as the source spells it
(rule R2). -/
inductive Form where
  | i
  | ii
  | iii
  | iiii
deriving DecidableEq, Repr

/-- The instruction, one constructor per row of the opcode table (rule R43). -/
inductive Instr where
  /-- Form (i), `LD Rd, Z` (rule R50). -/
  | ldZ (d : RegIdx)
  /-- Form (ii), `LD Rd, Z+` (rule R51). -/
  | ldZInc (d : RegIdx)
  /-- Form (iii), `LD Rd, -Z` (rule R52). -/
  | ldZDec (d : RegIdx)
  /-- Form (iiii), `LDD Rd, Z+q` (rule R53). -/
  | lddZ (d : RegIdx) (q : BitVec 6)
deriving DecidableEq, Repr

/-- The source's label of an instruction's form (rule R2). -/
def Instr.form : Instr → Form
  | .ldZ _ => .i
  | .ldZInc _ => .ii
  | .ldZDec _ => .iii
  | .lddZ _ _ => .iiii

/-- The destination register `Rd` of an instruction (rule R42). -/
def Instr.dest : Instr → RegIdx
  | .ldZ d => d
  | .ldZInc d => d
  | .ldZDec d => d
  | .lddZ d _ => d

end Sys2Proof
end

