-- ==== Sys2Proof/Config.lean ====
section
/-! DEFINITION. The device: the parameters of rule R4 as plain data, and the free values that the
platform fixes and the spec does not. -/

namespace Sys2Proof

/-- `CORE`: the three classes of core the source names and does not define (rules R1, R4; D13). -/
inductive CoreClass where
  | avr
  | xmega
  | avr8l
deriving DecidableEq, Repr

/-- `PTR_WIDTH`: how many bits of pointer the instruction uses and updates (rules R4, R15). -/
inductive PtrWidth where
  | w8
  | w16
  | w24
deriving DecidableEq, Repr

/-- The width in bits. -/
def PtrWidth.bits : PtrWidth → Nat
  | .w8 => 8
  | .w16 => 16
  | .w24 => 24

/-- What stands at one data-space address (`DATA_MAP` of rule R4). -/
inductive LocKind where
  | reg (i : RegIdx)
  | io (k : Nat)
  | ram
  | extRam
  | flash
  | unmapped
deriving DecidableEq, Repr

/-- What a run of consecutive data-space addresses holds: registers from number `first` on, I/O
locations from number `first` on, or one kind of memory. -/
inductive RegionKind where
  | regs (first : Nat)
  | io (first : Nat)
  | ram
  | extRam
  | flash
deriving DecidableEq, Repr

/-- A run of consecutive data-space addresses. -/
structure Region where
  base : Nat
  size : Nat
  kind : RegionKind
deriving DecidableEq, Repr

/-- Whether a platform agent is supplied beside the core: the two values of `IRQ_MODEL` and of
`OTHER_MASTERS` (rule R4; D15, D18). -/
inductive AgentModel where
  | absent
  | platform
deriving DecidableEq, Repr

/-- The implementation parameters of rule R4, fixed for one device. `DATA_MAP` is a list of
regions, the first that holds an address deciding it and an address in none being unmapped: every
function from addresses to kinds of location can be written so. `IoRead` and `FlashRead` are the
free values below. -/
structure Device where
  /-- `CORE`. -/
  core : CoreClass
  /-- `PTR_WIDTH`. -/
  ptrWidth : PtrWidth
  /-- `FORMS`: the forms this device has. -/
  forms : List Form
  /-- `DATA_MAP`. -/
  dataMap : List Region
  /-- `RAMPZ_ADDR`: where RAMPZ stands in the I/O part of the data space. -/
  rampzAddr : Option Nat
  /-- `PC_BITS`: the width of the program counter. -/
  pcBits : Nat
  /-- `PROG_WORDS`: the number of 16-bit words of program memory. -/
  progWords : Nat
  /-- `IRQ_MODEL`. -/
  irqModel : AgentModel
  /-- `OTHER_MASTERS`. -/
  otherMasters : AgentModel
  /-- `RESET_PC`: where execution starts after reset. -/
  resetPc : Nat
  /-- `END_PC`: where a run of the model is over (rule R73). -/
  endPc : Nat
deriving DecidableEq, Repr

/-- The platform's device state behind `IoRead` (rules R4, R25), as a plain token: only the free
functions `ioByte`, `ioNext` and `ioWritten` below say what a token means. -/
abbrev DevState := Nat

/-- FREE VALUE (rule R25, D8, U10): the byte a read of I/O location `k` returns in device state
`ds`. The platform's; nothing constrains it. -/
opaque Config.ioByte (k : Nat) (ds : DevState) : Byte

/-- FREE VALUE (rule R25, D8, U10): the device state after a read of I/O location `k` in device
state `ds`. The platform's; nothing constrains it. -/
opaque Config.ioNext (k : Nat) (ds : DevState) : DevState

/-- FREE VALUE (rules R25, R33, note 8): the device state after another bus master writes byte `v`
to I/O location `k` in device state `ds`. The platform's; nothing constrains it. -/
opaque Config.ioWritten (k : Nat) (v : Byte) (ds : DevState) : DevState

/-- FREE VALUE (rules R7, R17, note 6): the word the platform's program memory holds at a word
address where the model's state places none. A constant of the run; nothing constrains it. -/
opaque Config.progWord (a : Nat) : IWord

/-- FREE VALUE (rule R26, D22, U6): `FlashRead`, the byte of flash that stands at a data-space
address. A constant of the run; the platform's; nothing constrains it. -/
opaque Config.flashByte (a : Nat) : Byte

end Sys2Proof
end

