-- ==== Sys2Proof/Machine/DataMap.lean ====
section
/-! DEFINITION. What the parameters of the device say: the data map, the forms it has, which
parameter choices the spec admits, and the device of the reset state. -/

namespace Sys2Proof.Machine

/-- The kind of the location at offset `off` of a region (rule R23). A register region reaches no
further than register 31 (rule R9). -/
def regionKindAt (k : RegionKind) (off : Nat) : LocKind :=
  match k with
  | .regs first => if h : first + off < 32 then .reg ⟨first + off, h⟩ else .unmapped
  | .io first => .io (first + off)
  | .ram => .ram
  | .extRam => .extRam
  | .flash => .flash

/-- `DATA_MAP` over a list of regions: the first region that holds the address decides. -/
def mapAt : List Region → Nat → LocKind
  | [], _ => .unmapped
  | r :: rest, a =>
    if r.base ≤ a ∧ a < r.base + r.size then regionKindAt r.kind (a - r.base) else mapAt rest a

/-- `DATA_MAP(a)` of a device (rules R4, R23). -/
def kindAt (c : Device) (a : Addr) : LocKind :=
  mapAt c.dataMap a.toNat

/-- The device has the form: it is in `FORMS`, and it is not the displacement form on AVR8L
(rules R5(a), R45). -/
def hasForm (c : Device) (f : Form) : Bool :=
  decide (f ∈ c.forms) && !decide (c.core = .avr8l ∧ f = .iiii)

/-- The address is where RAMPZ stands in the data space (rules R14, R25). -/
def isRampzAddr (c : Device) (a : Addr) : Bool :=
  decide (c.ptrWidth = .w24 ∧ c.rampzAddr = some a.toNat)

/-- The kind is one the data-space memory `M` holds a byte for (rule R23). -/
def isMemKind : LocKind → Bool
  | .ram => true
  | .extRam => true
  | _ => false

/-- A region lies inside the data space, and a register region inside the register file. -/
def regionOk (w : PtrWidth) (r : Region) : Bool :=
  decide (r.base + r.size ≤ 2 ^ w.bits) &&
  match r.kind with
  | .regs first => decide (first + r.size ≤ 32)
  | _ => true

/-- RAMPZ is present exactly at pointer width 24, and then stands at an I/O location (rules
R5(c), R14). -/
def rampzOk (c : Device) : Bool :=
  match c.rampzAddr with
  | none => decide (c.ptrWidth ≠ .w24)
  | some a => decide (c.ptrWidth = .w24) && decide (a < 2 ^ 24) &&
      match mapAt c.dataMap a with
      | .io _ => true
      | _ => false

/-- Which pointer width the source's conditions give a device with so many bytes of data space and
of program memory (rule R4, C7): 8 at no more than 256 bytes of data space, 24 at more than 64K
bytes of either, 16 otherwise. `none` where both conditions hold: the spec gives that device no
meaning and a model refuses to be instantiated with it (rule R5(b), D5, U16). -/
def ptrWidthFor (dataBytes progBytes : Nat) : Option PtrWidth :=
  if dataBytes ≤ 256 then
    if progBytes ≤ 65536 then some .w8 else none
  else if dataBytes ≤ 65536 ∧ progBytes ≤ 65536 then some .w16
  else some .w24

/-- The size in bytes of the data space a map describes. DESIGN CHOICE (note 16): the end of its
last region that is not empty. -/
def dataBytes : List Region → Nat
  | [] => 0
  | r :: rest => if r.size = 0 then dataBytes rest else max (r.base + r.size) (dataBytes rest)

/-- `PTR_WIDTH` is the one width that rule R4 gives a device with this data space and this program
memory, whose words are two bytes each; a device with no width has none that fits (rule R5(b)). -/
def ptrWidthOk (c : Device) : Bool :=
  decide (ptrWidthFor (dataBytes c.dataMap) (2 * c.progWords) = some c.ptrWidth)

/-- The constraints between the parameters (rules R4 and R5): no displacement form on AVR8L, the
pointer width that the memory sizes give, the map inside the data space, RAMPZ exactly at pointer
width 24, flash only on AVR8L, and a program counter wide enough for the program memory. -/
def deviceOk (c : Device) : Bool :=
  decide (c.core = .avr8l → .iiii ∉ c.forms) &&
  ptrWidthOk c &&
  c.dataMap.all (regionOk c.ptrWidth) &&
  rampzOk c &&
  c.dataMap.all (fun r => decide (r.kind = .flash → c.core = .avr8l)) &&
  decide (0 < c.pcBits ∧ 1 ≤ c.progWords ∧ c.progWords ≤ 2 ^ c.pcBits ∧
    c.resetPc < 2 ^ c.pcBits ∧ c.endPc < 2 ^ c.pcBits)

/-- The device of the reset state. DESIGN CHOICE: the spec leaves every parameter open; these are
the conventions of `95_test_vectors.md` (core AVR, pointer width 16, all four forms, 16 program
counter bits, no other agent) with 32768 program words, the most rule R4 admits at pointer width
16 (64K bytes), and the layout of classic devices that rule R31 gives
(registers 0x00 to 0x1F, I/O 0x20 to 0x5F, internal SRAM from 0x60), `RESET_PC` 0 (rule R68) and
`END_PC` the last word. Notes 1 and 2. -/
def classicDevice : Device where
  core := .avr
  ptrWidth := .w16
  forms := [.i, .ii, .iii, .iiii]
  dataMap := [⟨0x0000, 0x0020, .regs 0⟩, ⟨0x0020, 0x0040, .io 0⟩, ⟨0x0060, 0xFFA0, .ram⟩]
  rampzAddr := none
  pcBits := 16
  progWords := 32768
  irqModel := .absent
  otherMasters := .absent
  resetPc := 0
  endPc := 32767

end Sys2Proof.Machine
end

