-- ==== Sys2Proof/Machine/State.lean ====
section
/-! DEFINITION. The state of the machine, the reasons a step can stop, and the reset state. -/

namespace Sys2Proof.Machine

/-- An 8-bit cell of state, which by rule R20 holds either an 8-bit value or `undef`, "no value
yet". `undef` is the spec's own state: a launch state may assign it to any cell, and a cell that
is written holds a value from then on. `State.reset` has no `undef` register (note 3). -/
inductive ByteCell where
  | undef
  | holds (b : Byte)
deriving DecidableEq, Repr

/-- Which cell a `fault UnwrittenRead` names (rules R20, R60). -/
inductive Location where
  /-- `x[i]` read as a byte of the pointer. -/
  | reg (i : RegIdx)
  /-- `x[i]` read through a `Reg(i)` location of the data space. -/
  | regVia (i : RegIdx)
  /-- RAMPZ. -/
  | rampz
  /-- The byte of data-space memory at an address. -/
  | mem (a : Nat)
deriving DecidableEq, Repr

/-- The fault outcomes of rule R8. -/
inductive Fault where
  /-- Form (ii) or (iii) with destination r30 or r31, whose result the source calls undefined
  (rule R54). Raised by the meanings of those forms. Safe: the machine stops where a chip goes on
  with a result nobody states. -/
  | undefinedCombination (f : Form) (d : RegIdx)
  /-- A cell that holds no value was read (rule R20, D23). Raised by the pointer read and
  the data-space read. Safe: the machine stops where a chip reads some value. -/
  | unwrittenRead (l : Location)
deriving DecidableEq, Repr

/-- The refusal outcomes of rule R8, and the host's own `notModelled`. -/
inductive Refusal where
  /-- An instruction without a meaning in this model. No arm of `exec` answers it. Safe. -/
  | notModelled (mnemonic : String)
  /-- The fetched word is none of the four patterns (rule R44). Raised by the fetch. Safe. -/
  | unknownOpcode (w : IWord)
  /-- The decoded form is not in `FORMS` (rule R45). Raised by the fetch. Safe. -/
  | formNotAvailable (f : Form)
  /-- The program counter is beyond program memory (rules R12, R49). Raised by the fetch. Safe. -/
  | fetchOutOfRange (pc : Nat)
  /-- Nothing is mapped at the effective address (rule R27). Raised by the data-space read. Safe. -/
  | unmappedAddress (a : Addr)
  /-- At pointer width 8, `x[30] + q` does not fit in 8 bits (rule R22, D12). Raised by form
  (iiii). Safe. -/
  | disp8Carry (r30 : Byte) (q : BitVec 6)
deriving DecidableEq, Repr

/-- Everything the spec gives the machine, as plain data. -/
structure State where
  /-- MODEL'S OWN FIELD: the parameters of rule R4, fixed for a run (no step changes them). -/
  cfg : Device
  /-- `x[0]` to `x[31]` (rule R9). The pointer Z is `x[31] ++ x[30]` (rule R10). -/
  regs : Vector ByteCell 32
  /-- The program counter, in 16-bit words; `PC_BITS` bits wide (rule R12), kept below
  `2^PC_BITS` by every step. -/
  pc : Nat
  /-- SREG, one cell of eight flags (rule R13, D24). -/
  sreg : ByteCell
  /-- RAMPZ (rule R14). It exists on devices of pointer width 24; elsewhere nothing reads or
  writes this field. -/
  rampz : ByteCell
  /-- `M`, the bytes of the data space of kind `Ram` and `ExtRam` (rules R20, R23); an address
  with no entry holds `undef`. -/
  mem : List Host.Cell
  /-- The words placed in program memory, by word address (rule R17); no step writes it. Elsewhere
  program memory holds the platform's words (note 6). -/
  prog : List (Nat × IWord)
  /-- The platform's device state behind `IoRead` (rule R25). -/
  devState : DevState
deriving DecidableEq, Repr

/-- The reset state of rules R20 and R68 as they stand, for any device: every 8-bit cell `undef`,
the program counter at `RESET_PC`. The program and the device state are the platform's. -/
def State.undefReset (c : Device) (prog : List (Nat × IWord)) (ds : DevState) : State where
  cfg := c
  regs := Vector.replicate 32 .undef
  pc := c.resetPc
  sreg := .undef
  rampz := .undef
  mem := []
  prog := prog
  devState := ds

/-- The machine right after reset, on the device of note 1, no program placed. The spec gives no
reset value of any register ("unspecified by the source", rule R20), so every register holds 0
here: DESIGN CHOICE for r0 to r31 and the device state, PRESUMED (the AVR family's values) for
SREG and RAMPZ. UNSAFE, note 3. Memory lists nothing: no byte of it has a value (rule R20). -/
def State.reset : State where
  cfg := classicDevice
  regs := Vector.replicate 32 (.holds 0)
  pc := classicDevice.resetPc
  sreg := .holds 0
  rampz := .holds 0
  mem := []
  prog := []
  devState := 0

end Sys2Proof.Machine
end

