-- ==== Sys2Proof/Machine/Store.lean ====
section
/-! DEFINITION. Sparse storage: a list of key and value pairs, keys strictly rising. The data-space
memory and the program memory are both held so. -/

namespace Sys2Proof.Machine

/-- The value stored under a key; `none` where the list has no entry: "no value yet" (rule R20). -/
def storeRead {α : Type} : List (Nat × α) → Nat → Option α
  | [], _ => none
  | (k, v) :: rest, a => if a = k then some v else storeRead rest a

/-- Store a value under a key, keeping the keys strictly rising. -/
def storeWrite {α : Type} : List (Nat × α) → Nat → α → List (Nat × α)
  | [], a, b => [(a, b)]
  | (k, v) :: rest, a, b =>
    if a < k then (a, b) :: (k, v) :: rest
    else if a = k then (a, b) :: rest
    else (k, v) :: storeWrite rest a b

/-- Every key of the list is above `lo`, and the keys rise strictly. -/
def storeAbove {α : Type} : Nat → List (Nat × α) → Bool
  | _, [] => true
  | lo, (k, _) :: rest => decide (lo < k) && storeAbove k rest

/-- The canonical form: keys strictly rising. No entry equals what an unlisted key reads as,
because an unlisted key holds no value (rule R20) and every entry holds one. -/
def storeSorted {α : Type} : List (Nat × α) → Bool
  | [] => true
  | (k, _) :: rest => storeAbove k rest

end Sys2Proof.Machine
end

