-- ==== Sys2Proof/Machine/Ops.lean ====
section
/-! DEFINITION. The named operations over registers, memories and the program counter, and the
data-space read and write. The spec has no architectural exception (rules R60, R63, R64): no operation here
takes one or returns from one, and a step that does not complete answers a fault or a refusal and
writes nothing. -/

namespace Sys2Proof.Machine

/-- Go on with the result of a partial operation; a fault or a refusal ends the step. -/
def andThen {α β : Type} (o : Host.Outcome α Fault Refusal)
    (f : α → Host.Outcome β Fault Refusal) : Host.Outcome β Fault Refusal :=
  match o with
  | .next a => f a
  | .fault r => .fault r
  | .refused r => .refused r

/-- The value of a cell; a cell with no value ends the step (rule R20). -/
def readCell (l : Location) (c : ByteCell) : Host.Outcome Byte Fault Refusal :=
  match c with
  | .undef => .fault (.unwrittenRead l)
  | .holds b => .next b

/-- The cell of general register `i` (rule R9). -/
def State.reg (s : State) (i : RegIdx) : ByteCell :=
  s.regs[i.val]

/-- `x[i] <- v` (rule R7): the cell holds a value from then on (rule R20). -/
def State.setReg (s : State) (i : RegIdx) (v : Byte) : State :=
  { s with regs := s.regs.set i.val (.holds v) }

/-- `RAMPZ <- v` (rule R14). -/
def State.setRampz (s : State) (v : Byte) : State :=
  { s with rampz := .holds v }

/-- The data-space memory `M[a]` (rule R23); `none` is `undef`. -/
def State.memByte (s : State) (a : Nat) : Option Byte :=
  storeRead s.mem a

/-- Write the memory byte `M[a]`: it holds a value from then on (rule R20). -/
def State.memWrite (s : State) (a : Nat) (v : Byte) : State :=
  { s with mem := storeWrite s.mem a v }

/-- Place an instruction word in program memory: what a launch does (rule R17). -/
def State.placeWord (s : State) (a : Nat) (w : IWord) : State :=
  { s with prog := storeWrite s.prog a w }

/-- `ProgRead(a)`, total (rules R7, R17): the word a launch has placed, or, where it has placed none,
the platform's word, a free value (note 6). -/
def progRead (s : State) (a : Nat) : IWord :=
  match storeRead s.prog a with
  | none => Config.progWord a
  | some w => w

/-- `pc <- (pc + 1) mod 2^PC_BITS` (rules R12, R57). -/
def State.advancePc (s : State) : State :=
  { s with pc := (s.pc + 1) % 2 ^ s.cfg.pcBits }

/-- The device state after a read of an I/O location (rule R25). -/
def State.setDevState (s : State) (ds : DevState) : State :=
  { s with devState := ds }

/-- A byte read from the data space and the state after the read. -/
structure Loaded where
  byte : Byte
  after : State
deriving DecidableEq, Repr

/-- A read that changes nothing: the byte, and the state as it was (rule R30). -/
def quietly (s : State) (o : Host.Outcome Byte Fault Refusal) :
    Host.Outcome Loaded Fault Refusal :=
  andThen o fun b => .next ⟨b, s⟩

/-- The value of the memory byte `M[a]`; a byte with no value ends the step (rule R20). -/
def readMem (s : State) (a : Addr) : Host.Outcome Byte Fault Refusal :=
  match s.memByte a.toNat with
  | none => .fault (.unwrittenRead (.mem a.toNat))
  | some b => .next b

/-- A read of I/O location `k` at address `a` (rule R25): RAMPZ as it stands where RAMPZ is mapped;
elsewhere the platform's byte and its new device state, both free values. -/
def readIo (s : State) (a : Addr) (k : Nat) : Host.Outcome Loaded Fault Refusal :=
  if isRampzAddr s.cfg a then quietly s (readCell .rampz s.rampz)
  else .next ⟨Config.ioByte k s.devState, s.setDevState (Config.ioNext k s.devState)⟩

/-- `DataRead(a)`, which is `MemRead(a, 1)` (rules R23 to R27; C8): one byte of the data space, by
the kind of the location. -/
def dataRead (s : State) (a : Addr) : Host.Outcome Loaded Fault Refusal :=
  match kindAt s.cfg a with
  | .reg i => quietly s (readCell (.regVia i) (s.reg i))
  | .io k => readIo s a k
  | .ram => quietly s (readMem s a)
  | .extRam => quietly s (readMem s a)
  | .flash => .next ⟨Config.flashByte a.toNat, s⟩
  | .unmapped => .refused (.unmappedAddress a)

/-- A write of I/O location `k` at address `a` (rules R25, R33): RAMPZ where RAMPZ is mapped; elsewhere
the platform's device state becomes whatever the platform makes of it, a free value. -/
def writeIo (s : State) (a : Addr) (k : Nat) (v : Byte) : State :=
  if isRampzAddr s.cfg a then s.setRampz v
  else s.setDevState (Config.ioWritten k v s.devState)

/-- `MemWrite(a, 1, v)` (rule R7): one byte of the data space written, by the kind of the location.
No form of the instruction calls it; another bus master does (rules R4, R33). Flash is constant
over a run (rules R26, R35) and an unmapped address has nothing to write, so both are left alone
(note 8). -/
def dataWrite (s : State) (a : Addr) (v : Byte) : State :=
  match kindAt s.cfg a with
  | .reg i => s.setReg i v
  | .io k => writeIo s a k v
  | .ram => s.memWrite a.toNat v
  | .extRam => s.memWrite a.toNat v
  | .flash => s
  | .unmapped => s

end Sys2Proof.Machine
end

