-- ==== Sys2Proof/Machine/Operands.lean ====
section
/-! DEFINITION. The pointer and the effective address (rules R10, R14, R15, R22). -/

namespace Sys2Proof.Machine

/-- `(v) mod 2^W`: the low `PTR_WIDTH` bits (rule R6). -/
def truncPtr (w : PtrWidth) (v : Addr) : Addr :=
  match w with
  | .w8 => (v.setWidth 8).setWidth 24
  | .w16 => (v.setWidth 16).setWidth 24
  | .w24 => v

/-- Register 30, the low byte of the pointer Z (rule R10). -/
def regZL : RegIdx := 30

/-- Register 31, the high byte of the pointer Z (rule R10). -/
def regZH : RegIdx := 31

/-- The register is one half of the pointer Z. -/
def isPtrHalf (d : RegIdx) : Bool :=
  decide (d = regZL ∨ d = regZH)

/-- A byte of the pointer held in a general register (rule R20). -/
def readPtrReg (s : State) (i : RegIdx) : Host.Outcome Byte Fault Refusal :=
  readCell (.reg i) (s.reg i)

/-- `PtrGet()` (rule R15). Its bytes are read in the order `x[30]`, `x[31]`, RAMPZ (rule R62), each
only where `PTR_WIDTH` makes it part of the pointer. -/
def ptrGet (s : State) : Host.Outcome Addr Fault Refusal :=
  match s.cfg.ptrWidth with
  | .w8 =>
    andThen (readPtrReg s regZL) fun lo => .next (lo.setWidth 24)
  | .w16 =>
    andThen (readPtrReg s regZL) fun lo =>
      andThen (readPtrReg s regZH) fun hi => .next ((hi ++ lo).setWidth 24)
  | .w24 =>
    andThen (readPtrReg s regZL) fun lo =>
      andThen (readPtrReg s regZH) fun hi =>
        andThen (readCell .rampz s.rampz) fun ext => .next (ext ++ hi ++ lo)

/-- `PtrSet(v)` (rule R15): at pointer width 8 register 31 is not written, and RAMPZ is written
only at pointer width 24. -/
def ptrSet (s : State) (v : Addr) : State :=
  match s.cfg.ptrWidth with
  | .w8 => s.setReg regZL (v.extractLsb' 0 8)
  | .w16 => (s.setReg regZL (v.extractLsb' 0 8)).setReg regZH (v.extractLsb' 8 8)
  | .w24 => ((s.setReg regZL (v.extractLsb' 0 8)).setReg regZH (v.extractLsb' 8 8)).setRampz
      (v.extractLsb' 16 8)

/-- The pointer after form (ii): `(P + 1) mod 2^W` (rule R22). -/
def ptrInc (w : PtrWidth) (p : Addr) : Addr :=
  truncPtr w (p + 1)

/-- The pointer after form (iii), and its effective address: `(P - 1) mod 2^W` (rule R22). -/
def ptrDec (w : PtrWidth) (p : Addr) : Addr :=
  truncPtr w (p - 1)

/-- The effective address of form (iiii): `(P + q) mod 2^W`, `q` zero-extended; at pointer width 8
a sum of 256 or more is refused (rules R22, R53; D12). -/
def dispAddr (w : PtrWidth) (p : Addr) (q : BitVec 6) : Host.Outcome Addr Fault Refusal :=
  match w with
  | .w8 =>
    if 256#9 ≤ (p.setWidth 8).setWidth 9 + q.setWidth 9 then
      .refused (.disp8Carry (p.setWidth 8) q)
    else .next (p + q.setWidth 24)
  | .w16 => .next (truncPtr .w16 (p + q.setWidth 24))
  | .w24 => .next (truncPtr .w24 (p + q.setWidth 24))

end Sys2Proof.Machine
end

