-- ==== Sys2Proof/Machine/LoadZ.lean ====
section
/-! DEFINITION. The meanings of the four forms (rules R50 to R54, R59). A fault or a refusal
anywhere in a meaning leaves no write behind: the state is answered only at its end (rule R49). -/

namespace Sys2Proof.Machine

/-- `LD Rd, Z` (rule R50): `Rd ← (Z)`, the pointer unchanged. Destinations r30 and r31 are defined
(rule R59): the address is the pointer before the write. -/
def execLdZ (d : RegIdx) (s : State) : Host.Outcome State Fault Refusal :=
  andThen (ptrGet s) fun p =>
    andThen (dataRead s p) fun r =>
      .next (r.after.setReg d r.byte).advancePc

/-- `LD Rd, Z+` (rule R51): `Rd ← (Z)`, then `Z ← Z + 1`. Destinations r30 and r31 are undefined,
checked on `d` before any register is read (rule R54). -/
def execLdZInc (d : RegIdx) (s : State) : Host.Outcome State Fault Refusal :=
  if isPtrHalf d then .fault (.undefinedCombination .ii d)
  else
    andThen (ptrGet s) fun p =>
      andThen (dataRead s p) fun r =>
        .next (ptrSet (r.after.setReg d r.byte) (ptrInc s.cfg.ptrWidth p)).advancePc

/-- `LD Rd, -Z` (rule R52): `Z ← Z - 1`, then `Rd ← (Z)`; the read sees the decremented pointer
bytes (rule R24). Destinations r30 and r31 are undefined (rule R54). -/
def execLdZDec (d : RegIdx) (s : State) : Host.Outcome State Fault Refusal :=
  if isPtrHalf d then .fault (.undefinedCombination .iii d)
  else
    andThen (ptrGet s) fun p =>
      andThen (dataRead (ptrSet s (ptrDec s.cfg.ptrWidth p)) (ptrDec s.cfg.ptrWidth p)) fun r =>
        .next (r.after.setReg d r.byte).advancePc

/-- `LDD Rd, Z+q` (rule R53): `Rd ← (Z+q)`, the pointer unchanged. With `q = 0` it does what
`LD Rd, Z` does, as the rule says, though no word decodes to it. -/
def execLddZ (d : RegIdx) (q : BitVec 6) (s : State) : Host.Outcome State Fault Refusal :=
  andThen (ptrGet s) fun p =>
    andThen (dispAddr s.cfg.ptrWidth p q) fun ea =>
      andThen (dataRead s ea) fun r =>
        .next (r.after.setReg d r.byte).advancePc

end Sys2Proof.Machine
end

