-- ==== Sys2Proof/WellFormed.lean ====
section
/-! DEFINITION. Which instructions are well formed as decoded shapes. -/

namespace Sys2Proof

/-- An instruction the decoder can produce. The register number and the displacement are in range
by their types; the one check left is that the decoded shape of form (iiii) has `q` from 1 to 63,
because the word with `q = 0` belongs to form (i) (rule R43; `90_conflicts.md` C1). The four
undefined combinations of rule R54 decode normally, so they are well formed (C6). -/
def Instr.wellFormed : Instr → Bool
  | .ldZ _ => true
  | .ldZInc _ => true
  | .ldZDec _ => true
  | .lddZ _ q => decide (q ≠ 0)

end Sys2Proof
end

