-- ==== Sys2Proof/Decode.lean ====
section
/-! DEFINITION. The decoder and the encoder (rules R37 to R44). -/

namespace Sys2Proof

/-- What the decoder answers: one of the four shapes, or the word it does not know (rule R43). -/
inductive Decoded where
  | instr (i : Instr)
  | unknown (w : IWord)
deriving DecidableEq, Repr

/-- One row of the opcode table: the bits a word must have (rules R38 to R41). -/
structure OpRow where
  mask : IWord
  pattern : IWord
deriving DecidableEq, Repr

/-- The row of each form: its mask and its match (rules R38, R39, R40, R41). -/
def Form.row : Form → OpRow
  | .i => ⟨0xFE0F#16, 0x8000#16⟩
  | .ii => ⟨0xFE0F#16, 0x9001#16⟩
  | .iii => ⟨0xFE0F#16, 0x9002#16⟩
  | .iiii => ⟨0xD208#16, 0x8000#16⟩

/-- The word has the row's fixed bits. -/
def OpRow.fits (r : OpRow) (w : IWord) : Bool :=
  decide (w &&& r.mask = r.pattern)

/-- Field `d`, `word[8:4]` (rule R42; the order of its bits is PRESUMED by the spec itself, G2). -/
def fieldD (w : IWord) : RegIdx :=
  (w.extractLsb' 4 5).toFin

/-- Field `q`, `word[13] ++ word[11:10] ++ word[2:0]` (rule R42). -/
def fieldQ (w : IWord) : BitVec 6 :=
  w.extractLsb' 13 1 ++ w.extractLsb' 10 2 ++ w.extractLsb' 0 3

/-- `Decode(word)`, total on 16-bit words, the four tests in the order of rule R43. -/
def decode (w : IWord) : Decoded :=
  if Form.i.row.fits w then .instr (.ldZ (fieldD w))
  else if Form.ii.row.fits w then .instr (.ldZInc (fieldD w))
  else if Form.iii.row.fits w then .instr (.ldZDec (fieldD w))
  else if Form.iiii.row.fits w then .instr (.lddZ (fieldD w) (fieldQ w))
  else .unknown w

/-- The register number placed at bits 8 to 4 of a word. -/
def placeD (d : RegIdx) : IWord :=
  BitVec.ofNat 16 d.val <<< 4

/-- The displacement's bits placed at bits 13, 11:10 and 2:0 of a word (rule R41). -/
def placeQ (q : BitVec 6) : IWord :=
  ((q.extractLsb' 5 1).setWidth 16 <<< 13) ||| ((q.extractLsb' 3 2).setWidth 16 <<< 10)
    ||| (q.extractLsb' 0 3).setWidth 16

/-- The word of an instruction (rules R38 to R41). It is total: the ill-formed `LDD Rd, Z+0` gets
the word of `LD Rd, Z`, which is what the assembler emits for that spelling (rule R48). -/
def encode : Instr → IWord
  | .ldZ d => 0x8000#16 ||| placeD d
  | .ldZInc d => 0x9001#16 ||| placeD d
  | .ldZDec d => 0x9002#16 ||| placeD d
  | .lddZ d q => 0x8000#16 ||| placeQ q ||| placeD d

/-- The instruction word that the opcode table numbers `w`, `nbits` bits of it given and the bits
above them zero. Every instruction is one 16-bit word (rule R37), so there is no second word. -/
def tableWord (nbits w : Nat) : IWord :=
  BitVec.ofNat 16 (w % 2 ^ nbits)

/-- The instruction the decoder reads from the table's word `w`. -/
def decodeTableWord (nbits w : Nat) : Option Instr :=
  match decode (tableWord nbits w) with
  | .instr i => some i
  | .unknown _ => none

end Sys2Proof
end

