-- ==== Sys2Proof/Machine/Fetch.lean ====
section
/-! DEFINITION. Fetching, decoding and the availability check (rules R44, R45, R49). -/

namespace Sys2Proof.Machine

/-- The word at the program counter; beyond program memory the fetch is refused (rule R49). -/
def fetchWord (s : State) : Host.Outcome IWord Fault Refusal :=
  if s.cfg.progWords ≤ s.pc then .refused (.fetchOutOfRange s.pc)
  else .next (progRead s s.pc)

/-- The instruction of a word (rule R44). -/
def decodeWord (w : IWord) : Host.Outcome Instr Fault Refusal :=
  match decode w with
  | .instr i => .next i
  | .unknown u => .refused (.unknownOpcode u)

/-- The instruction, if the device has its form (rule R45). -/
def checkForm (c : Device) (i : Instr) : Host.Outcome Instr Fault Refusal :=
  if hasForm c i.form then .next i else .refused (.formNotAvailable i.form)

/-- Fetch, decode, check availability: the first three checks of rule R62, in its order. -/
def fetchInstr (s : State) : Host.Outcome Instr Fault Refusal :=
  andThen (fetchWord s) fun w => andThen (decodeWord w) fun i => checkForm s.cfg i

end Sys2Proof.Machine
end

