-- ==== Sys2Proof/Machine/Step.lean ====
section
/-! DEFINITION. One step of the core (rule R49). -/

namespace Sys2Proof.Machine

/-- `Step(S)` (rule R49): fetch, decode, check that the device has the form, run its meaning. The
end of a run at `END_PC` (rule R73) is no part of it: a real core does not stop there. -/
def step (s : State) : Host.Outcome State Fault Refusal :=
  andThen (fetchInstr s) fun i => exec i s

/-- The state with the table's word placed at the program counter, where the next step fetches.
It stands for the load of a program from outside the machine (note 6). -/
def State.withFetchWord (s : State) (nbits w : Nat) : State :=
  s.placeWord s.pc (tableWord nbits w)

end Sys2Proof.Machine
end

