-- ==== Sys2Proof/Machine/Assembly.lean ====
section
/-! DEFINITION. The assembler syntax (rules R47, R48): what a disassembler prints, and the words an
assembler emits. -/

namespace Sys2Proof.Machine

/-- A line of assembler as the source's syntax table has it (rule R47). -/
inductive AsmLine where
  /-- `LD Rd, Z`. -/
  | ldZ (d : RegIdx)
  /-- `LD Rd, Z+`. -/
  | ldZInc (d : RegIdx)
  /-- `LD Rd, -Z`. -/
  | ldZDec (d : RegIdx)
  /-- `LDD Rd, Z+q`, with `q` from 0 to 63. -/
  | lddZ (d : RegIdx) (q : BitVec 6)
deriving DecidableEq, Repr

/-- The instruction a line stands for. `LDD Rd, Z+0` is another spelling of `LD Rd, Z` (rule
R48). -/
def AsmLine.toInstr : AsmLine → Instr
  | .ldZ d => .ldZ d
  | .ldZInc d => .ldZInc d
  | .ldZDec d => .ldZDec d
  | .lddZ d q => if q = 0 then .ldZ d else .lddZ d q

/-- The word an assembler emits for a line (rules R38 to R41, R48). -/
def assemble (l : AsmLine) : IWord :=
  encode l.toInstr

/-- The line a disassembler shows for an instruction (rule R48). -/
def disassemble : Instr → AsmLine
  | .ldZ d => .ldZ d
  | .ldZInc d => .ldZInc d
  | .ldZDec d => .ldZDec d
  | .lddZ d q => .lddZ d q

/-- The name of a register in assembler (rules R9, R47). -/
def regText (d : RegIdx) : String :=
  "r" ++ toString d.val

/-- The text of a line, in the spelling of the syntax table (rule R47). -/
def AsmLine.text : AsmLine → String
  | .ldZ d => "LD " ++ regText d ++ ", Z"
  | .ldZInc d => "LD " ++ regText d ++ ", Z+"
  | .ldZDec d => "LD " ++ regText d ++ ", -Z"
  | .lddZ d q => "LDD " ++ regText d ++ ", Z+" ++ toString q.toNat

end Sys2Proof.Machine
end

