-- ==== Sys2Proof/Machine/Timing.lean ====
section
/-! DEFINITION. The cycle table (rules R71, R72). Timing only: no step reads it and the model keeps
no clock (D21). -/

namespace Sys2Proof.Machine

/-- The first number of a cell of the cycle table: the cycles of a form on a core before any extra
cycle; `none` is "N/A" (rule R71). -/
def baseCycles (c : CoreClass) (f : Form) : Option Nat :=
  match c, f with
  | .avr, _ => some 2
  | .xmega, .i => some 1
  | .xmega, .ii => some 1
  | .xmega, .iii => some 2
  | .xmega, .iiii => some 2
  | .avr8l, .i => some 1
  | .avr8l, .ii => some 1
  | .avr8l, .iii => some 2
  | .avr8l, .iiii => none

/-- The footnotes: one extra cycle on XMEGA for internal SRAM, on AVR8L for flash (rule R71). -/
def extraCycles (c : CoreClass) (k : LocKind) : Nat :=
  match c, k with
  | .xmega, .ram => 1
  | .avr8l, .flash => 1
  | _, _ => 0

/-- The cycles of a form on a core, by the kind of the location read (rule R72). -/
def cycles (c : CoreClass) (f : Form) (k : LocKind) : Option Nat :=
  (baseCycles c f).map (· + extraCycles c k)

end Sys2Proof.Machine
end

