-- ==== Sys2Proof/Machine/Flags.lean ====
section
/-! DEFINITION. The flags of SREG (rule R13). No form of the instruction computes, reads or writes
a flag (rule R55), so what stands here is how a flag is read from the register. -/

namespace Sys2Proof.Machine

/-- The eight flags in the order the source lists them (rule R13). -/
inductive Flag where
  | I
  | T
  | H
  | S
  | V
  | N
  | Z
  | C
deriving DecidableEq, Repr

/-- The bit of SREG that holds a flag. PRESUMED, by the spec itself (rule R13, G6): I is bit 7 and
C is bit 0; no rule depends on it. -/
def Flag.bit : Flag → Nat
  | .I => 7
  | .T => 6
  | .H => 5
  | .S => 4
  | .V => 3
  | .N => 2
  | .Z => 1
  | .C => 0

/-- The value of a flag; `none` where SREG, one cell taken as a whole (rule R20), is `undef`. -/
def State.flag (s : State) (f : Flag) : Option Bool :=
  match s.sreg with
  | .undef => none
  | .holds b => some (b.getLsbD f.bit)

end Sys2Proof.Machine
end

