-- ==== Sys2Proof/Machine/Invariant.lean ====
section
/-! DEFINITION. The form every state of a run keeps. -/

namespace Sys2Proof.Machine

/-- The memory listed is in canonical form, on addresses of kind `Ram` and `ExtRam` only (rules
R20, R23). -/
def memOk (c : Device) (m : List Host.Cell) : Bool :=
  storeSorted m && m.all fun e => isMemKind (mapAt c.dataMap e.1)

/-- The form every state of a run keeps: an admitted device (rules R4, R5), a program counter of
`PC_BITS` bits (rule R12), and both memories in canonical form. -/
def State.wf (s : State) : Bool :=
  deviceOk s.cfg && decide (s.pc < 2 ^ s.cfg.pcBits) && memOk s.cfg s.mem && storeSorted s.prog

end Sys2Proof.Machine
end

