-- ==== Sys2Proof/Machine/Run.lean ====
section
/-! DEFINITION. A run: core steps and the steps of the optional platform agents between them, the
recorded outcome, and the end of a run (rules R33, R61, R63, R64, R73). -/

namespace Sys2Proof.Machine

/-- A recorded outcome other than "next" (rule R8). -/
inductive Stop where
  | fault (f : Fault)
  | refused (r : Refusal)
deriving DecidableEq, Repr

/-- A state with the outcome recorded beside it, if one is (rule R63). -/
structure Run where
  state : State
  stop : Option Stop
deriving DecidableEq, Repr

/-- A run at its launch state: nothing recorded. -/
def Run.launch (s : State) : Run :=
  ⟨s, none⟩

/-- Instantiate the model at a launch state: refused where the device breaks a constraint of rules R4
and R5, or the launch assigns a program counter or a memory out of form. Rule R5(b) says so of one
combination of sizes only; refusing the rest is a DESIGN CHOICE (note 16). It is no step, so it raises none of rule R8's reasons. -/
def Run.instantiate (s : State) : Option Run :=
  if s.wf then some (Run.launch s) else none

/-- The run is over: `pc = END_PC` with nothing recorded (rule R73). It says nothing of a chip. -/
def Run.final (r : Run) : Bool :=
  decide (r.stop = none ∧ r.state.pc = r.state.cfg.endPc)

/-- No further step is taken: an outcome is recorded (rules R63, R64) or the run is over (R73). -/
def Run.ended (r : Run) : Bool :=
  r.stop.isSome || r.final

/-- Record the outcome of a step taken at `s`: a fault or a refusal leaves the state exactly as it
was before the step (rules R49, R63). -/
def recordOutcome (s : State) (o : Host.Outcome State Fault Refusal) : Run :=
  match o with
  | .next t => ⟨t, none⟩
  | .fault f => ⟨s, some (.fault f)⟩
  | .refused r => ⟨s, some (.refused r)⟩

/-- What may happen next: a step of the core, a write by another bus master, or a step of the
interrupt agent. The last two happen only between core steps, never inside one (rules R33, R61). -/
inductive Event where
  | core
  | masterWrite (a : Addr) (v : Byte)
  | irqAgent (after : State)
deriving DecidableEq, Repr

/-- A core step of a run (rules R49, R63, R73). -/
def Run.coreStep (r : Run) : Run :=
  if r.ended then r else recordOutcome r.state (step r.state)

/-- The other master writes one byte of the data space, where the device has such an agent (rules R4,
R33, D18). -/
def agentWrite (s : State) (a : Addr) (v : Byte) : State :=
  match s.cfg.otherMasters with
  | .absent => s
  | .platform => dataWrite s a v

/-- The interrupt agent moves the machine to a state of its choice, where the device has one: what
it does is not specified (rule R61). It changes neither the device nor the program memory, and it
leaves the program counter in its width and the memory in its canonical form (note 8). -/
def agentInterrupt (s after : State) : State :=
  match s.cfg.irqModel with
  | .absent => s
  | .platform =>
    if after.cfg = s.cfg ∧ after.prog = s.prog ∧ after.wf = true then after else s

/-- One event of a run; after the run has ended nothing happens. -/
def Run.event (r : Run) (e : Event) : Run :=
  match e with
  | .core => r.coreStep
  | .masterWrite a v => if r.ended then r else ⟨agentWrite r.state a v, none⟩
  | .irqAgent after => if r.ended then r else ⟨agentInterrupt r.state after, none⟩

/-- A run from `r` through a list of events, in order. -/
def Run.events (r : Run) : List Event → Run
  | [] => r
  | e :: rest => (r.event e).events rest

end Sys2Proof.Machine
end

