-- ==== Sys2Proof/Safety.lean ====
section
/-! DEFINITION. The words the statements about the machine are made of: the spec's own relations
(which pointer a state holds, which byte a read returns, when a form completes and with what
effect), said without the functions that compute them: of the machine's own they use the lookup in
the data map, the read of one memory byte, and the pointer write before the read of form (iii). -/

namespace Sys2Proof.Machine

/-- The state's pointer is `p` (rule R15, `PtrGet`): all its bytes hold values, and `p` is their
concatenation, RAMPZ highest and register 30 lowest, zero above `PTR_WIDTH`. -/
def PointerIs (s : State) (p : Addr) : Prop :=
  match s.cfg.ptrWidth with
  | .w8 => ∃ lo : Byte, s.reg 30 = .holds lo ∧ p.toNat = lo.toNat
  | .w16 => ∃ lo hi : Byte, s.reg 30 = .holds lo ∧ s.reg 31 = .holds hi ∧
      p.toNat = hi.toNat * 2 ^ 8 + lo.toNat
  | .w24 => ∃ lo hi ext : Byte, s.reg 30 = .holds lo ∧ s.reg 31 = .holds hi ∧
      s.rampz = .holds ext ∧ p.toNat = ext.toNat * 2 ^ 16 + hi.toNat * 2 ^ 8 + lo.toNat

/-- A read of data-space address `a` returns byte `b` and leaves device state `ds` (rules R23 to
R26). -/
inductive ReadsByte (s : State) (a : Addr) : Byte → DevState → Prop where
  /-- A register location reads the register (rule R24). -/
  | reg {i : RegIdx} {b : Byte} : kindAt s.cfg a = .reg i → s.reg i = .holds b →
      ReadsByte s a b s.devState
  /-- The I/O location of RAMPZ reads RAMPZ (rule R25). -/
  | rampz {k : Nat} {b : Byte} : kindAt s.cfg a = .io k → isRampzAddr s.cfg a = true →
      s.rampz = .holds b → ReadsByte s a b s.devState
  /-- Every other I/O location is the platform's (rule R25). -/
  | io {k : Nat} : kindAt s.cfg a = .io k → isRampzAddr s.cfg a = false →
      ReadsByte s a (Config.ioByte k s.devState) (Config.ioNext k s.devState)
  /-- Internal SRAM (rule R23). -/
  | ram {b : Byte} : kindAt s.cfg a = .ram → s.memByte a.toNat = some b →
      ReadsByte s a b s.devState
  /-- External SRAM (rule R23). -/
  | extRam {b : Byte} : kindAt s.cfg a = .extRam → s.memByte a.toNat = some b →
      ReadsByte s a b s.devState
  /-- Flash seen through the data space (rule R26). -/
  | flash : kindAt s.cfg a = .flash → ReadsByte s a (Config.flashByte a.toNat) s.devState

/-- The location at `a` is readable in kind but holds no value; the cell a read would name (rules
R20, R60). -/
inductive HoldsNoByte (s : State) (a : Addr) : Location → Prop where
  | reg {i : RegIdx} : kindAt s.cfg a = .reg i → s.reg i = .undef → HoldsNoByte s a (.regVia i)
  | rampz {k : Nat} : kindAt s.cfg a = .io k → isRampzAddr s.cfg a = true → s.rampz = .undef →
      HoldsNoByte s a .rampz
  | ram : kindAt s.cfg a = .ram → s.memByte a.toNat = none → HoldsNoByte s a (.mem a.toNat)
  | extRam : kindAt s.cfg a = .extRam → s.memByte a.toNat = none → HoldsNoByte s a (.mem a.toNat)

/-- The first byte of the pointer that holds no value, in the order of rule R62: `x[30]`, `x[31]`,
RAMPZ, each only where it is part of the pointer. -/
inductive PointerLacks (s : State) : Location → Prop where
  | low : s.reg 30 = .undef → PointerLacks s (.reg 30)
  | high {lo : Byte} : s.cfg.ptrWidth ≠ .w8 → s.reg 30 = .holds lo → s.reg 31 = .undef →
      PointerLacks s (.reg 31)
  | ext {lo hi : Byte} : s.cfg.ptrWidth = .w24 → s.reg 30 = .holds lo → s.reg 31 = .holds hi →
      s.rampz = .undef → PointerLacks s .rampz

/-- The destination is one half of the pointer that forms (ii) and (iii) update (rule R54). -/
def undefinedCombination : Instr → Bool
  | .ldZ _ => false
  | .ldZInc d => decide (d = 30 ∨ d = 31)
  | .ldZDec d => decide (d = 30 ∨ d = 31)
  | .lddZ _ _ => false

/-- At pointer width 8, the displacement carries out of the low byte of the pointer (rule R22). -/
def displacementCarries (w : PtrWidth) (p : Addr) : Instr → Bool
  | .lddZ _ q => decide (w = .w8 ∧ 256 ≤ p.toNat + q.toNat)
  | _ => false

/-- The effective address `EA` of rule R22, where it is not refused: the sum modulo `2^W`. -/
def effectiveAddr (w : PtrWidth) (p : Addr) : Instr → Addr
  | .ldZ _ => p
  | .ldZInc _ => p
  | .ldZDec _ => BitVec.ofNat 24 ((p.toNat + 2 ^ w.bits - 1) % 2 ^ w.bits)
  | .lddZ _ q => BitVec.ofNat 24 ((p.toNat + q.toNat) % 2 ^ w.bits)

/-- The state in which the form's read is performed: form (iii) writes the pointer first (rules
R24, R52). -/
def stateAtRead (s : State) (p : Addr) (i : Instr) : State :=
  match i with
  | .ldZDec _ => ptrSet s (effectiveAddr s.cfg.ptrWidth p i)
  | _ => s

/-- The pointer a form leaves by its own arithmetic (rule R22); forms (i) and (iiii) write none. -/
def pointerWritten (w : PtrWidth) (p : Addr) (i : Instr) : Option Addr :=
  match i with
  | .ldZInc _ => some (BitVec.ofNat 24 ((p.toNat + 1) % 2 ^ w.bits))
  | .ldZDec _ => some (effectiveAddr w p i)
  | _ => none

/-- A form may write register `j`: its destination, and the pointer's registers where the form
writes the pointer (rules R9, R15). -/
def mayWriteReg (w : PtrWidth) (i : Instr) (j : RegIdx) : Prop :=
  j = i.dest ∨ (i.form = .ii ∨ i.form = .iii) ∧ (j = 30 ∨ j = 31 ∧ w ≠ .w8)

/-- What no form changes, from `s` to `t`: the device, SREG and every flag in it, every byte of
data-space memory and every word of program memory (rules R13, R21, R35, R55). -/
structure KeepsRest (s t : State) : Prop where
  cfg : t.cfg = s.cfg
  sreg : t.sreg = s.sreg
  flags : ∀ f : Flag, t.flag f = s.flag f
  memory : ∀ a : Nat, t.memByte a = s.memByte a
  program : ∀ a : Nat, progRead t a = progRead s a

/-- The layout of a word of forms (i), (ii) and (iii) as their tables print it (rules R38 to R40):
fixed bits 15:9, `d[4]` at bit 8, `d[3:0]` at bits 7:4, fixed bits 3:0. -/
def PrintedLd (hi : BitVec 7) (lo : BitVec 4) (d : RegIdx) (w : IWord) : Prop :=
  w.extractLsb' 9 7 = hi ∧
  w.extractLsb' 8 1 = (BitVec.ofNat 5 d.val).extractLsb' 4 1 ∧
  w.extractLsb' 4 4 = (BitVec.ofNat 5 d.val).extractLsb' 0 4 ∧
  w.extractLsb' 0 4 = lo

/-- The layout of a word of form (iiii) as its table prints it (rule R41). -/
def PrintedLdd (d : RegIdx) (q : BitVec 6) (w : IWord) : Prop :=
  w.extractLsb' 14 2 = 0b10#2 ∧
  w.extractLsb' 13 1 = q.extractLsb' 5 1 ∧
  w.extractLsb' 12 1 = 0#1 ∧
  w.extractLsb' 10 2 = q.extractLsb' 3 2 ∧
  w.extractLsb' 9 1 = 0#1 ∧
  w.extractLsb' 8 1 = (BitVec.ofNat 5 d.val).extractLsb' 4 1 ∧
  w.extractLsb' 4 4 = (BitVec.ofNat 5 d.val).extractLsb' 0 4 ∧
  w.extractLsb' 3 1 = 0#1 ∧
  w.extractLsb' 0 3 = q.extractLsb' 0 3

/-- The pointer after byte `b` is loaded into register 30 or 31 (rule R59): register 30 is its low
byte, register 31 its second byte except at pointer width 8, where it is no part of it. -/
def pointerWithByte (w : PtrWidth) (p : Addr) (d : RegIdx) (b : Byte) : Addr :=
  if d = 30 then BitVec.ofNat 24 (p.toNat / 256 * 256 + b.toNat)
  else if w = .w8 then p
  else BitVec.ofNat 24 (p.toNat / 65536 * 65536 + b.toNat * 256 + p.toNat % 256)

/-- Every general register and RAMPZ hold values (rule R20). -/
def RegistersHold (s : State) : Prop :=
  (∀ j : RegIdx, s.reg j ≠ .undef) ∧ s.rampz ≠ .undef

/-- The word at the program counter, inside program memory (rules R17, R49). -/
def Fetches (s : State) (w : IWord) : Prop :=
  s.pc < s.cfg.progWords ∧ progRead s s.pc = w

/-- The state with a cell of the register file replaced, a value or `undef`: two launch states that
differ in one register. -/
def State.withReg (s : State) (i : RegIdx) (c : ByteCell) : State :=
  { s with regs := s.regs.set i.val c }

/-- Change the next state of an outcome; a fault or a refusal stays what it is. -/
def mapNext (f : State → State) (o : Host.Outcome State Fault Refusal) :
    Host.Outcome State Fault Refusal :=
  match o with
  | .next t => .next (f t)
  | .fault r => .fault r
  | .refused r => .refused r

/-- The form completes from `s` with next state `t`, as rules R50 to R54 say it: a defined
combination, a pointer all of whose bytes hold values, a displacement that is not refused, and a
byte read at the effective address; the destination then holds that byte, the pointer is what the
form leaves, and the program counter is one word on. -/
inductive Completes (i : Instr) (s t : State) : Prop where
  | intro (p : Addr) (b : Byte) (ds : DevState)
      (defined : undefinedCombination i = false)
      (pointer : PointerIs s p)
      (noCarry : displacementCarries s.cfg.ptrWidth p i = false)
      (read : ReadsByte (stateAtRead s p i) (effectiveAddr s.cfg.ptrWidth p i) b ds)
      (dest : t.reg i.dest = .holds b)
      (written : ∀ p', pointerWritten s.cfg.ptrWidth p i = some p' → PointerIs t p')
      (otherRegs : ∀ j, ¬ mayWriteReg s.cfg.ptrWidth i j → t.reg j = s.reg j)
      (rampz : pointerWritten s.cfg.ptrWidth p i = none ∨ s.cfg.ptrWidth ≠ .w24 →
        t.rampz = s.rampz)
      (pc : t.pc = (s.pc + 1) % 2 ^ s.cfg.pcBits)
      (device : t.devState = ds)
      (cfg : t.cfg = s.cfg)
      (sreg : t.sreg = s.sreg)
      (mem : t.mem = s.mem)
      (prog : t.prog = s.prog) : Completes i s t

end Sys2Proof.Machine
end

