-- ==== Sys2Proof/Certificates/Slice0/Obligations.lean ====
section
/-! DEFINITION. The statements for the provers. -/

open Sys2Proof Sys2Proof.Machine

/-! ## Encoding -/

/-- `30_encoding.md` sections 1 to 3: a word decodes to an instruction exactly when that instruction
is well formed and the word is its encoding, with every operand at every value. -/
def Obligations.DecodeAndEncodeAgree : Prop :=
  ∀ (w : IWord) (i : Instr), decode w = .instr i ↔ i.wellFormed = true ∧ encode i = w

/-- Rules R38, R39 and R40: the printed layout, the word value, and the mask and match of forms (i),
(ii) and (iii). -/
def Obligations.LdFormsHaveTheirPrintedLayout : Prop :=
  (∀ d : RegIdx,
    PrintedLd 0b1000000#7 0b0000#4 d (encode (.ldZ d)) ∧
    encode (.ldZ d) = 0x8000#16 ||| (BitVec.ofNat 16 d.val <<< 4) ∧
    PrintedLd 0b1001000#7 0b0001#4 d (encode (.ldZInc d)) ∧
    encode (.ldZInc d) = 0x9001#16 ||| (BitVec.ofNat 16 d.val <<< 4) ∧
    PrintedLd 0b1001000#7 0b0010#4 d (encode (.ldZDec d)) ∧
    encode (.ldZDec d) = 0x9002#16 ||| (BitVec.ofNat 16 d.val <<< 4)) ∧
  ∀ w : IWord,
    (w &&& 0xFE0F#16 = 0x8000#16 ↔ ∃ d, w = encode (.ldZ d)) ∧
    (w &&& 0xFE0F#16 = 0x9001#16 ↔ ∃ d, w = encode (.ldZInc d)) ∧
    (w &&& 0xFE0F#16 = 0x9002#16 ↔ ∃ d, w = encode (.ldZDec d))

/-- Rule R41: the printed layout, the word value, and the mask and match of form (iiii). -/
def Obligations.LddFormHasItsPrintedLayout : Prop :=
  (∀ (d : RegIdx) (q : BitVec 6),
    PrintedLdd d q (encode (.lddZ d q)) ∧
    encode (.lddZ d q) =
      0x8000#16 ||| ((q.extractLsb' 5 1).setWidth 16 <<< 13) |||
        ((q.extractLsb' 3 2).setWidth 16 <<< 10) ||| (BitVec.ofNat 16 d.val <<< 4) |||
        (q.extractLsb' 0 3).setWidth 16) ∧
  ∀ w : IWord, w &&& 0xD208#16 = 0x8000#16 ↔ ∃ d q, w = encode (.lddZ d q)

/-- `95_test_vectors.md` section 2: words written out from the encoding tables decode as listed. -/
def Obligations.KnownWordsDecodeAsListed : Prop :=
  decode 0x81F0#16 = .instr (.ldZ 31) ∧
  decode 0x9051#16 = .instr (.ldZInc 5) ∧
  decode 0x9101#16 = .instr (.ldZInc 16) ∧
  decode 0x9112#16 = .instr (.ldZDec 17) ∧
  decode 0x8400#16 = .instr (.lddZ 0 8) ∧
  decode 0xA000#16 = .instr (.lddZ 0 32) ∧
  decode 0xADF7#16 = .instr (.lddZ 31 63) ∧
  decode 0xA552#16 = .instr (.lddZ 21 42) ∧
  decode 0x9003#16 = .unknown 0x9003#16

/-- Rule R44: a word that is none of the four patterns decodes to `Unknown`, and the step that
fetches it is refused; the neighbours the rule lists are among those words. -/
def Obligations.WordsOfNoPatternAreRefused : Prop :=
  (∀ w : IWord,
    (w &&& 0xFE0F#16 ≠ 0x8000#16 ∧ w &&& 0xFE0F#16 ≠ 0x9001#16 ∧ w &&& 0xFE0F#16 ≠ 0x9002#16 ∧
      w &&& 0xD208#16 ≠ 0x8000#16) →
    decode w = .unknown w ∧ ∀ s : State, Fetches s w → step s = .refused (.unknownOpcode w)) ∧
  (∀ w : IWord, w.getLsbD 3 = true ∨ w.getLsbD 9 = true → decode w = .unknown w) ∧
  ∀ w : IWord, w.extractLsb' 4 12 = 0x900#12 → w.extractLsb' 0 4 ≠ 0b0001#4 →
    w.extractLsb' 0 4 ≠ 0b0010#4 → decode w = .unknown w

/-- `30_encoding.md` section 5: `LDD Rd, Z+0` assembles to the word of `LD Rd, Z`, and a disassembler
prints that word as `LD Rd, Z`. The alias is the spec's own inference (rule R48, derived there from
rule R43), and the type of assembler lines and their text are the model's (assumption log note
21). -/
def Obligations.DisplacementZeroIsAnAlias : Prop :=
  ∀ d : RegIdx,
    assemble (.lddZ d 0) = assemble (.ldZ d) ∧
    decode (assemble (.lddZ d 0)) = .instr (.ldZ d) ∧
    ∀ i, decode (assemble (.lddZ d 0)) = .instr i →
      (disassemble i).text = "LD r" ++ toString d.val ++ ", Z"

/-! ## The step -/

/-- `40_ld_ldd_z.md` section 1: where the fetched word decodes to an instruction whose form the
device has, the step is that instruction's meaning. -/
def Obligations.StepRunsTheDecodedInstruction : Prop :=
  ∀ (s : State) (w : IWord) (i : Instr),
    Fetches s w → decode w = .instr i → i.form ∈ s.cfg.forms →
    ¬ (s.cfg.core = .avr8l ∧ i.form = .iiii) → step s = exec i s

/-- THE MODEL'S CHOICE, assumption log note 6: program memory is part of the state, and placing a word
at the program counter stands for the load of a program from outside. The word placed is the word
the very next step fetches and runs (`40_ld_ldd_z.md` section 1 says what a step runs). -/
def Obligations.PlacedTableWordIsTheNextInstruction : Prop :=
  ∀ (s : State) (nbits w : Nat) (i : Instr),
    s.pc < s.cfg.progWords → decodeTableWord nbits w = some i → hasForm s.cfg i.form = true →
    step (s.withFetchWord nbits w) = exec i (s.withFetchWord nbits w)

/-- Rule R45: a decoded form that is not in `FORMS` is refused, and on AVR8L so is every word that
decodes to the displacement form, whatever `FORMS` says. -/
def Obligations.UnavailableFormsAreRefused : Prop :=
  ∀ (s : State) (w : IWord) (i : Instr), Fetches s w → decode w = .instr i →
    (i.form ∉ s.cfg.forms → step s = .refused (.formNotAvailable i.form)) ∧
    (s.cfg.core = .avr8l → ∀ d q, i = .lddZ d q →
      q ≠ 0 ∧ step s = .refused (.formNotAvailable .iiii))

/-- Rule R62: the checks of a step in their fixed order; the first that applies is reported. -/
def Obligations.ChecksAreMadeInTheFixedOrder : Prop :=
  ∀ s : State,
    (s.cfg.progWords ≤ s.pc → step s = .refused (.fetchOutOfRange s.pc)) ∧
    ∀ w, Fetches s w →
      (decode w = .unknown w → step s = .refused (.unknownOpcode w)) ∧
      ∀ i, decode w = .instr i →
        (hasForm s.cfg i.form = false → step s = .refused (.formNotAvailable i.form)) ∧
        (hasForm s.cfg i.form = true →
          (undefinedCombination i = true →
            step s = .fault (.undefinedCombination i.form i.dest)) ∧
          (undefinedCombination i = false →
            (∀ l, PointerLacks s l → step s = .fault (.unwrittenRead l)) ∧
            ∀ p, PointerIs s p →
              (∀ d q x, i = .lddZ d q → s.cfg.ptrWidth = .w8 → s.reg 30 = .holds x →
                256 ≤ x.toNat + q.toNat → step s = .refused (.disp8Carry x q)) ∧
              (displacementCarries s.cfg.ptrWidth p i = false →
                (kindAt s.cfg (effectiveAddr s.cfg.ptrWidth p i) = .unmapped →
                  step s = .refused
                    (.unmappedAddress (effectiveAddr s.cfg.ptrWidth p i))) ∧
                ∀ l, HoldsNoByte (stateAtRead s p i) (effectiveAddr s.cfg.ptrWidth p i) l →
                  step s = .fault (.unwrittenRead l))))

/-- `00_scope.md` section 4: a step faults only at an undefined combination, at a pointer byte with no
value or at a location with no value. A fetch never faults: program memory holds a word at every
address, the platform's free one where none is placed (assumption log note 6). -/
def Obligations.FaultsHaveOnlyTheNamedCauses : Prop :=
  ∀ (s : State) (f : Fault), step s = .fault f →
    ∃ w i, Fetches s w ∧ decode w = .instr i ∧ hasForm s.cfg i.form = true ∧
      ((undefinedCombination i = true ∧ f = .undefinedCombination i.form i.dest) ∨
        undefinedCombination i = false ∧
          ((∃ l, PointerLacks s l ∧ f = .unwrittenRead l) ∨
            ∃ p l, PointerIs s p ∧ displacementCarries s.cfg.ptrWidth p i = false ∧
              HoldsNoByte (stateAtRead s p i) (effectiveAddr s.cfg.ptrWidth p i) l ∧
              f = .unwrittenRead l))

/-- `00_scope.md` section 4: a step is refused only for the five reasons listed there. -/
def Obligations.RefusalsHaveOnlyTheNamedCauses : Prop :=
  ∀ (s : State) (r : Refusal), step s = .refused r →
    (s.cfg.progWords ≤ s.pc ∧ r = .fetchOutOfRange s.pc) ∨
    ∃ w, Fetches s w ∧
      ((decode w = .unknown w ∧ r = .unknownOpcode w) ∨
        ∃ i, decode w = .instr i ∧
          ((hasForm s.cfg i.form = false ∧ r = .formNotAvailable i.form) ∨
            hasForm s.cfg i.form = true ∧ undefinedCombination i = false ∧
              ∃ p, PointerIs s p ∧
                ((∃ d q x, i = .lddZ d q ∧ s.cfg.ptrWidth = .w8 ∧ s.reg 30 = .holds x ∧
                    256 ≤ x.toNat + q.toNat ∧ r = .disp8Carry x q) ∨
                  (displacementCarries s.cfg.ptrWidth p i = false ∧
                    kindAt s.cfg (effectiveAddr s.cfg.ptrWidth p i) = .unmapped ∧
                    r = .unmappedAddress (effectiveAddr s.cfg.ptrWidth p i)))))

/-- Rule R57: every step that completes moves the program counter one word on, modulo
`2^PC_BITS`, and nothing else is done to it. -/
def Obligations.CompletedStepAdvancesPcByOne : Prop :=
  ∀ s t : State, step s = .next t → t.pc = (s.pc + 1) % 2 ^ s.cfg.pcBits

/-! ## The four forms: where each completes, and with what result -/

/-- Form (i): `Rd ← (Z)`, the pointer not written; frame included. -/
def Obligations.LdZLoadsTheByteAtThePointer : Prop :=
  ∀ (d : RegIdx) (s : State) (p : Addr) (b : Byte) (ds : DevState),
    PointerIs s p → ReadsByte s p b ds →
    ∃ t, exec (.ldZ d) s = .next t ∧
      t.reg d = .holds b ∧
      (∀ j, j ≠ d → t.reg j = s.reg j) ∧
      t.rampz = s.rampz ∧
      t.pc = (s.pc + 1) % 2 ^ s.cfg.pcBits ∧
      t.devState = ds ∧ KeepsRest s t

/-- Form (ii): `Rd ← (Z)`, then the pointer plus one modulo `2^W`; frame included. -/
def Obligations.LdZIncLoadsThenIncrements : Prop :=
  ∀ (d : RegIdx) (s : State) (p : Addr) (b : Byte) (ds : DevState),
    d ≠ 30 → d ≠ 31 → PointerIs s p → ReadsByte s p b ds →
    ∃ t, exec (.ldZInc d) s = .next t ∧
      t.reg d = .holds b ∧
      PointerIs t (BitVec.ofNat 24 ((p.toNat + 1) % 2 ^ s.cfg.ptrWidth.bits)) ∧
      (s.cfg.ptrWidth = .w8 → t.reg 31 = s.reg 31) ∧
      (s.cfg.ptrWidth ≠ .w24 → t.rampz = s.rampz) ∧
      (∀ j, j ≠ d → j ≠ 30 → j ≠ 31 → t.reg j = s.reg j) ∧
      t.pc = (s.pc + 1) % 2 ^ s.cfg.pcBits ∧
      t.devState = ds ∧ KeepsRest s t

/-- Form (iii): the pointer minus one modulo `2^W` is written, and the byte is read there in the
state with the new pointer; frame included. -/
def Obligations.LdZDecDecrementsThenLoads : Prop :=
  ∀ (d : RegIdx) (s : State) (p p' : Addr) (b : Byte) (ds : DevState),
    d ≠ 30 → d ≠ 31 → PointerIs s p →
    p'.toNat = (p.toNat + 2 ^ s.cfg.ptrWidth.bits - 1) % 2 ^ s.cfg.ptrWidth.bits →
    ReadsByte (ptrSet s p') p' b ds →
    ∃ t, exec (.ldZDec d) s = .next t ∧
      t.reg d = .holds b ∧
      PointerIs t p' ∧
      (s.cfg.ptrWidth = .w8 → t.reg 31 = s.reg 31) ∧
      (s.cfg.ptrWidth ≠ .w24 → t.rampz = s.rampz) ∧
      (∀ j, j ≠ d → j ≠ 30 → j ≠ 31 → t.reg j = s.reg j) ∧
      t.pc = (s.pc + 1) % 2 ^ s.cfg.pcBits ∧
      t.devState = ds ∧ KeepsRest s t

/-- Form (iiii): `Rd ← (Z+q)`, the sum modulo `2^W`, not past 255 at pointer width 8, the pointer
and RAMPZ not written; frame included. -/
def Obligations.LddZLoadsAtTheDisplacement : Prop :=
  ∀ (d : RegIdx) (q : BitVec 6) (s : State) (p ea : Addr) (b : Byte) (ds : DevState),
    PointerIs s p → ¬ (s.cfg.ptrWidth = .w8 ∧ 256 ≤ p.toNat + q.toNat) →
    ea.toNat = (p.toNat + q.toNat) % 2 ^ s.cfg.ptrWidth.bits →
    ReadsByte s ea b ds →
    ∃ t, exec (.lddZ d q) s = .next t ∧
      t.reg d = .holds b ∧
      (∀ j, j ≠ d → t.reg j = s.reg j) ∧
      t.rampz = s.rampz ∧
      t.pc = (s.pc + 1) % 2 ^ s.cfg.pcBits ∧
      t.devState = ds ∧ KeepsRest s t

/-- The headline: for every instruction, state and next state, `exec` answers that next state
exactly when the rules say the form completes with it. -/
def Obligations.ExecCompletesExactlyAsTheRulesSay : Prop :=
  ∀ (i : Instr) (s t : State), exec i s = .next t ↔ Completes i s t

/-- What a completed instruction may change, for all four forms at once: the destination, the
pointer's registers in forms (ii) and (iii), RAMPZ in those forms at pointer width 24, the program
counter, and the device state only through an I/O location other than RAMPZ's. -/
def Obligations.ExecChangesOnlyItsTargets : Prop :=
  ∀ (i : Instr) (s t : State), exec i s = .next t →
    (∀ j, ¬ mayWriteReg s.cfg.ptrWidth i j → t.reg j = s.reg j) ∧
    (t.rampz ≠ s.rampz → s.cfg.ptrWidth = .w24 ∧ (i.form = .ii ∨ i.form = .iii)) ∧
    (∀ p, PointerIs s p →
      (∀ k, kindAt s.cfg (effectiveAddr s.cfg.ptrWidth p i) = .io k →
        isRampzAddr s.cfg (effectiveAddr s.cfg.ptrWidth p i) = true) →
      t.devState = s.devState) ∧
    KeepsRest s t

/-- Rule R54: the four undefined combinations decode normally and fault in every state, whatever
the registers hold and whatever the pointer width; nothing is written. -/
def Obligations.UndefinedCombinationsFault : Prop :=
  (decode 0x91E1#16 = .instr (.ldZInc 30) ∧ decode 0x91F1#16 = .instr (.ldZInc 31) ∧
    decode 0x91E2#16 = .instr (.ldZDec 30) ∧ decode 0x91F2#16 = .instr (.ldZDec 31)) ∧
  ∀ (s : State) (d : RegIdx), d = 30 ∨ d = 31 →
    exec (.ldZInc d) s = .fault (.undefinedCombination .ii d) ∧
    exec (.ldZDec d) s = .fault (.undefinedCombination .iii d) ∧
    recordOutcome s (exec (.ldZInc d) s) = ⟨s, some (.fault (.undefinedCombination .ii d))⟩ ∧
    recordOutcome s (exec (.ldZDec d) s) = ⟨s, some (.fault (.undefinedCombination .iii d))⟩

/-- `40_ld_ldd_z.md` section 3, the spec's own inference (rule R59 is derived there from rules R50, R53
and R54): forms (i) and (iiii) with destination r30 or r31 are defined; the address comes from
the pointer before, the byte then replaces that half of it, and at pointer width 8 a load into r31
leaves the pointer alone. -/
def Obligations.LoadsIntoThePointerAreDefined : Prop :=
  ∀ (d : RegIdx) (q : BitVec 6) (s : State) (p : Addr) (b : Byte) (ds : DevState),
    d = 30 ∨ d = 31 → PointerIs s p →
    (ReadsByte s p b ds →
      ∃ t, exec (.ldZ d) s = .next t ∧ t.reg d = .holds b ∧
        PointerIs t (pointerWithByte s.cfg.ptrWidth p d b)) ∧
    (displacementCarries s.cfg.ptrWidth p (.lddZ d q) = false →
      ReadsByte s (effectiveAddr s.cfg.ptrWidth p (.lddZ d q)) b ds →
      ∃ t, exec (.lddZ d q) s = .next t ∧ t.reg d = .holds b ∧
        PointerIs t (pointerWithByte s.cfg.ptrWidth p d b))

/-- `40_ld_ldd_z.md` section 2, form (iiii): with `q = 0` its meaning is that of form (i), in every
state and with every outcome. -/
def Obligations.DisplacementZeroActsAsLdZ : Prop :=
  ∀ (d : RegIdx) (s : State), exec (.lddZ d 0) s = exec (.ldZ d) s

/-- Rule R27: a read where nothing is mapped is refused, and no register, pointer or program
counter update takes place. -/
def Obligations.UnmappedAddressIsRefused : Prop :=
  ∀ (i : Instr) (s : State) (p : Addr), undefinedCombination i = false → PointerIs s p →
    displacementCarries s.cfg.ptrWidth p i = false →
    kindAt s.cfg (effectiveAddr s.cfg.ptrWidth p i) = .unmapped →
    exec i s = .refused (.unmappedAddress (effectiveAddr s.cfg.ptrWidth p i)) ∧
    recordOutcome s (exec i s) =
      ⟨s, some (.refused (.unmappedAddress (effectiveAddr s.cfg.ptrWidth p i)))⟩

/-- Rule R55: no form reads SREG (replacing it changes no outcome but by itself) and no form writes
it, nor any flag in it. -/
def Obligations.FlagsAreNeitherReadNorWritten : Prop :=
  ∀ (i : Instr) (s : State),
    (∀ c : ByteCell,
      exec i { s with sreg := c } = mapNext (fun t => { t with sreg := c }) (exec i s)) ∧
    ∀ t, exec i s = .next t → t.sreg = s.sreg ∧ ∀ f : Flag, t.flag f = s.flag f

/-- `10_state.md` section 4: at pointer width 8, register 31 is no part of the pointer. Where no
address maps to it and it is not the destination, its contents, `undef` included, affect nothing
and are left alone. -/
def Obligations.EightBitPointersIgnoreRegister31 : Prop :=
  ∀ (i : Instr) (s : State) (c : ByteCell), s.cfg.ptrWidth = .w8 → i.dest ≠ 31 →
    (∀ a, kindAt s.cfg a ≠ .reg 31) →
    exec i (s.withReg 31 c) = mapNext (fun t => t.withReg 31 c) (exec i s)

/-- `10_state.md` section 4: below pointer width 24 there is no RAMPZ: what its field holds affects
nothing and is left alone. -/
def Obligations.RampzMattersOnlyAt24Bits : Prop :=
  ∀ (i : Instr) (s : State) (c : ByteCell), s.cfg.ptrWidth ≠ .w24 →
    exec i { s with rampz := c } = mapNext (fun t => { t with rampz := c }) (exec i s)

/-- `20_memory.md` section 1: loads whose address is the storage of a register follow the printed
order. Form (i) may load a register from itself; form (ii) reads before the increment; form (iii)
reads the decremented byte of the pointer. The order is an inference the spec marks as its own
(rule R24, decision D20, which leaves a modeller free to refuse the case), and following it is the
model's choice (assumption log note 11). Form (iii) from the location of another register is a
case of LdZDecDecrementsThenLoads. -/
def Obligations.RegisterLocationsFollowThePrintedOrder : Prop :=
  ∀ (d r : RegIdx) (s : State) (p p' : Addr) (b : Byte), PointerIs s p →
    (kindAt s.cfg p = .reg d → s.reg d = .holds b →
      ∃ t, exec (.ldZ d) s = .next t ∧ ∀ j, t.reg j = s.reg j) ∧
    (d ≠ 30 → d ≠ 31 → kindAt s.cfg p = .reg r → s.reg r = .holds b →
      ∃ t, exec (.ldZInc d) s = .next t ∧ t.reg d = .holds b) ∧
    (d ≠ 30 → d ≠ 31 →
      p'.toNat = (p.toNat + 2 ^ s.cfg.ptrWidth.bits - 1) % 2 ^ s.cfg.ptrWidth.bits →
      (kindAt s.cfg p' = .reg 30 →
        ∃ t, exec (.ldZDec d) s = .next t ∧ t.reg d = .holds (BitVec.ofNat 8 p'.toNat)) ∧
      (kindAt s.cfg p' = .reg 31 → s.cfg.ptrWidth ≠ .w8 →
        ∃ t, exec (.ldZDec d) s = .next t ∧ t.reg d = .holds (BitVec.ofNat 8 (p'.toNat / 256))))

/-- `20_memory.md` section 1: a completed load from an I/O location returns RAMPZ as it stands at the read where
RAMPZ is mapped, device state untouched; from every other I/O location the byte and the new device
state are the platform's, whatever they are. The spec marks the first as its inference and
the second as its decision D8; it rests on the model's free values (assumption log note 7), on the
printed order of read and update (note 11) and on where RAMPZ stands (note 14). -/
def Obligations.IoReadsAreRampzOrThePlatforms : Prop :=
  ∀ (i : Instr) (s t : State) (p : Addr) (k : Nat), exec i s = .next t → PointerIs s p →
    kindAt s.cfg (effectiveAddr s.cfg.ptrWidth p i) = .io k →
    ((s.cfg.ptrWidth = .w24 ∧
        s.cfg.rampzAddr = some (effectiveAddr s.cfg.ptrWidth p i).toNat) →
      t.reg i.dest = (stateAtRead s p i).rampz ∧ t.devState = s.devState) ∧
    (¬ (s.cfg.ptrWidth = .w24 ∧
        s.cfg.rampzAddr = some (effectiveAddr s.cfg.ptrWidth p i).toNat) →
      t.reg i.dest = .holds (Config.ioByte k s.devState) ∧
      t.devState = Config.ioNext k s.devState)

/-- `20_memory.md` section 1: a post-increment followed by a pre-decrement leaves the pointer where
it was, and from internal or external SRAM both loads return the same byte. -/
def Obligations.IncrementThenDecrementReturns : Prop :=
  ∀ (d e : RegIdx) (s t u : State) (p : Addr), PointerIs s p →
    exec (.ldZInc d) s = .next t → exec (.ldZDec e) t = .next u →
    PointerIs u p ∧ (isMemKind (kindAt s.cfg p) = true → u.reg e = t.reg d)

/-! ## Invariants and runs -/

/-- Every step keeps the form of the state: an admitted device, a program counter of `PC_BITS`
bits, and both memories in canonical form, the data memory only at SRAM addresses. -/
def Obligations.StepKeepsTheStateWellFormed : Prop :=
  ∀ s t : State, s.wf = true → step s = .next t → t.wf = true

/-- The reset state has that form; its device and its zeros are the model's choice (assumption log
notes 1 and 3). -/
def Obligations.ResetStateIsWellFormed : Prop :=
  State.reset.wf = true

/-- Every run keeps that form: core steps, writes by another master and steps of an interrupt
agent, in any order. What the agents can do is the model's choice (assumption log note 8): rule R61
leaves the interrupt agent unspecified, and the model lets it move to any state of this form with
the same device and program; another master writes one byte of the data space. -/
def Obligations.RunsKeepTheStateWellFormed : Prop :=
  ∀ (r : Run) (es : List Event), r.state.wf = true → (r.events es).state.wf = true

/-- Rules R63 and R64: a step that faults or is refused leaves the state exactly as it was, the
outcome is recorded beside it, that run is not final, and nothing that follows clears the outcome
or changes the state. -/
def Obligations.StopsArePreciseAndPermanent : Prop :=
  ∀ r : Run, r.ended = false →
    (∀ f, step r.state = .fault f →
      r.coreStep = ⟨r.state, some (.fault f)⟩ ∧ r.coreStep.final = false ∧
      ∀ es, r.coreStep.events es = r.coreStep) ∧
    ∀ x, step r.state = .refused x →
      r.coreStep = ⟨r.state, some (.refused x)⟩ ∧ r.coreStep.final = false ∧
      ∀ es, r.coreStep.events es = r.coreStep

/-- `70_reset_and_hazards.md` section 5: a run is final exactly at `END_PC` with nothing recorded, and
launching records nothing. Rule R73 says that the core takes no step from a final state; that no
agent's event changes it either is the model's choice (assumption log note 9). -/
def Obligations.RunsEndAtEndPc : Prop :=
  ∀ (s : State) (st : Option Stop) (es : List Event),
    (Run.launch s).stop = none ∧
    ((⟨s, st⟩ : Run).final = true ↔ s.pc = s.cfg.endPc ∧ st = none) ∧
    ((⟨s, st⟩ : Run).final = true → (⟨s, st⟩ : Run).events es = ⟨s, st⟩)

/-- `20_memory.md` section 4: with no other master and no interrupt agent, no byte of the data
memory and no word of the program memory ever changes during a run. -/
def Obligations.MemoryIsConstantWithoutAgents : Prop :=
  ∀ (r : Run) (es : List Event), r.state.cfg.otherMasters = .absent →
    r.state.cfg.irqModel = .absent → ∀ a,
    (r.events es).state.memByte a = r.state.memByte a ∧
    progRead (r.events es).state a = progRead r.state a

/-- `20_memory.md` section 4: a load after another master's write to an SRAM address returns the
byte written; bytes elsewhere are as before. MasterWritesReachTheDataSpace says it of every kind of
location. -/
def Obligations.LoadsReturnTheLatestMasterWrite : Prop :=
  ∀ (s : State) (a : Addr) (v : Byte) (d : RegIdx), s.cfg.otherMasters = .platform →
    isMemKind (kindAt s.cfg a) = true → (Run.launch s).ended = false → PointerIs s a →
    ∃ s' t, (Run.launch s).event (.masterWrite a v) = Run.launch s' ∧
      exec (.ldZ d) s' = .next t ∧ t.reg d = .holds v ∧
      ∀ c, c ≠ a.toNat → t.memByte c = s.memByte c

/-- `20_memory.md` section 4 and `00_scope.md` section 3: what another master's write does, by the
kind of the location. A register, RAMPZ or a byte of SRAM holds the byte written, and a load from
there returns it, the pointer being taken after the write, which may have written part of it.
Nothing else changes. Two clauses are THE MODEL'S CHOICE: at an I/O location other than RAMPZ's the
device state becomes the free value `Config.ioWritten` (assumption log note 7), and at a flash or
unmapped address the write has no effect at all (note 8); that the agent acts in whole writes of one
byte between core steps is note 8 too. -/
def Obligations.MasterWritesReachTheDataSpace : Prop :=
  ∀ (s : State) (a : Addr) (v : Byte) (d : RegIdx), s.cfg.otherMasters = .platform →
    (Run.launch s).ended = false →
    ∃ s', (Run.launch s).event (.masterWrite a v) = Run.launch s' ∧
      (∀ i, kindAt s.cfg a = .reg i → s'.reg i = .holds v) ∧
      (∀ k, kindAt s.cfg a = .io k → isRampzAddr s.cfg a = true →
        s'.rampz = .holds v ∧ s'.devState = s.devState) ∧
      (isMemKind (kindAt s.cfg a) = true → s'.memByte a.toNat = some v) ∧
      (kindAt s.cfg a = .flash ∨ kindAt s.cfg a = .unmapped → s' = s) ∧
      (((∃ i, kindAt s.cfg a = .reg i) ∨
          (∃ k, kindAt s.cfg a = .io k ∧ isRampzAddr s.cfg a = true) ∨
          isMemKind (kindAt s.cfg a) = true) →
        PointerIs s' a → ∃ t, exec (.ldZ d) s' = .next t ∧ t.reg d = .holds v) ∧
      (∀ k, kindAt s.cfg a = .io k → isRampzAddr s.cfg a = false →
        s'.devState = Config.ioWritten k v s.devState ∧ s'.rampz = s.rampz) ∧
      ((∀ k, kindAt s.cfg a ≠ .io k) → s'.rampz = s.rampz ∧ s'.devState = s.devState) ∧
      (∀ j, kindAt s.cfg a ≠ .reg j → s'.reg j = s.reg j) ∧
      (∀ c, isMemKind (kindAt s.cfg a) = false ∨ c ≠ a.toNat → s'.memByte c = s.memByte c) ∧
      s'.pc = s.pc ∧ s'.sreg = s.sreg ∧ s'.cfg = s.cfg ∧ ∀ c, progRead s' c = progRead s c

/-! ## Reset, parameters, timing -/

/-- `10_state.md` section 7: in the reset state that section tabulates, on any device, the program
counter is `RESET_PC`, no cell holds a value, and the first load that is available and is no
undefined combination faults on the low byte of the pointer. -/
def Obligations.FirstLoadFromAnUndefinedResetFaults : Prop :=
  ∀ (c : Device) (prog : List (Nat × IWord)) (ds : DevState) (w : IWord) (i : Instr),
    (State.undefReset c prog ds).pc = c.resetPc ∧
    (∀ j, (State.undefReset c prog ds).reg j = .undef) ∧
    (State.undefReset c prog ds).sreg = .undef ∧ (State.undefReset c prog ds).rampz = .undef ∧
    (∀ a, (State.undefReset c prog ds).memByte a = none) ∧
    (Fetches (State.undefReset c prog ds) w → decode w = .instr i →
      hasForm c i.form = true → undefinedCombination i = false →
      step (State.undefReset c prog ds) = .fault (.unwrittenRead (.reg 30)))

/-- THE MODEL'S CHOICE, assumption log notes 1 and 3: the reset state every run of the host starts
from has value 0 in every register, on a device of the model's choosing; the memory holds nothing
and the program counter is that device's `RESET_PC`. -/
def Obligations.ModelResetHoldsZeroInEveryRegister : Prop :=
  (∀ j, State.reset.reg j = .holds 0) ∧ State.reset.sreg = .holds 0 ∧
  State.reset.rampz = .holds 0 ∧ State.reset.pc = State.reset.cfg.resetPc ∧
  ∀ a, State.reset.memByte a = none

/-- `10_state.md` section 7, "Writing a cell gives it a value": where every register and RAMPZ hold
values, as in this model's reset state (assumption log note 3), they do after every completed step,
and no step faults for want of a register's value. -/
def Obligations.RegistersWithValuesStayReadable : Prop :=
  ∀ s : State, RegistersHold s →
    (∀ t, step s = .next t → RegistersHold t) ∧
    ∀ l, step s = .fault (.unwrittenRead l) → ∃ a, l = .mem a

/-- `00_scope.md` section 3: what an admitted device satisfies, and the device that no pointer width is
given. Constraints (b) and (c) of rule R5 are the spec's decisions D5 and D9 and (d) is its
inference; the size of a data space, its last mapped address and everything below it, is the
model's choice (assumption log note 16). -/
def Obligations.AdmittedDevicesMeetTheConstraints : Prop :=
  (∀ c : Device, deviceOk c = true →
    (c.core = .avr8l → .iiii ∉ c.forms ∧ hasForm c .iiii = false) ∧
    (c.rampzAddr.isSome = true ↔ c.ptrWidth = .w24) ∧
    (∀ a, kindAt c a = .flash → c.core = .avr8l) ∧
    (∀ a, kindAt c a ≠ .unmapped → a.toNat < dataBytes c.dataMap) ∧
    (c.ptrWidth = .w8 ↔ dataBytes c.dataMap ≤ 256) ∧
    (c.ptrWidth = .w24 ↔ 65536 < dataBytes c.dataMap ∨ 65536 < 2 * c.progWords) ∧
    ¬ (dataBytes c.dataMap ≤ 256 ∧ 65536 < 2 * c.progWords)) ∧
  ∀ dataBytes progBytes : Nat,
    ptrWidthFor dataBytes progBytes = none ↔ dataBytes ≤ 256 ∧ 65536 < progBytes

/-- THE MODEL'S CHOICE, assumption log note 16: the model is not instantiated at a state that is out of
form, so with no device that `deviceOk` rejects, the size of its data space being taken from the
map; in particular at pointer width 8 or 16 with more than 64K bytes of program memory. An
instantiated run starts at its launch state, well formed, with nothing recorded. The spec itself
(`00_scope.md` section 3, constraint (b) of rule R5, its decision D5) has a model refuse to be
instantiated for one combination only: at most 256 bytes of data space with more than 64K bytes of
program memory. -/
def Obligations.UnadmittedDevicesAreNotInstantiated : Prop :=
  ∀ s : State,
    (deviceOk s.cfg = false → Run.instantiate s = none) ∧
    (s.cfg.ptrWidth ≠ .w24 → 65536 < 2 * s.cfg.progWords → Run.instantiate s = none) ∧
    (s.wf = true → Run.instantiate s = some (Run.launch s)) ∧
    ∀ r, Run.instantiate s = some r → r = Run.launch s ∧ s.wf = true ∧ r.stop = none

/-- `70_reset_and_hazards.md` section 4: the cycles of each form on each core, by the kind of the
location read. The reading of the table's cells is the spec's inference (rule R72, derived there
from "one extra cycle is required"; assumption log note 19). -/
def Obligations.CyclesFollowTheTable : Prop :=
  ∀ k : LocKind,
    (∀ f, cycles .avr f k = some 2) ∧
    (∀ f, f = .i ∨ f = .ii → cycles .xmega f k = some (if k = .ram then 2 else 1)) ∧
    (∀ f, f = .iii ∨ f = .iiii → cycles .xmega f k = some (if k = .ram then 3 else 2)) ∧
    (∀ f, f = .i ∨ f = .ii → cycles .avr8l f k = some (if k = .flash then 2 else 1)) ∧
    cycles .avr8l .iii k = some (if k = .flash then 3 else 2) ∧
    cycles .avr8l .iiii k = none
end

