-- ==== Sys2Proof/Laws/State.lean ====
section
/-! SUPPORT. One lemma per field of the state per update of it, so that no proof unfolds a record
update. -/

namespace Sys2Proof.Machine

@[simp] theorem State.setReg_cfg (s : State) (i : RegIdx) (v : Byte) :
    (s.setReg i v).cfg = s.cfg := rfl
@[simp] theorem State.setReg_regs (s : State) (i : RegIdx) (v : Byte) :
    (s.setReg i v).regs = s.regs.set i.val (.holds v) := rfl
@[simp] theorem State.setReg_pc (s : State) (i : RegIdx) (v : Byte) :
    (s.setReg i v).pc = s.pc := rfl
@[simp] theorem State.setReg_sreg (s : State) (i : RegIdx) (v : Byte) :
    (s.setReg i v).sreg = s.sreg := rfl
@[simp] theorem State.setReg_rampz (s : State) (i : RegIdx) (v : Byte) :
    (s.setReg i v).rampz = s.rampz := rfl
@[simp] theorem State.setReg_mem (s : State) (i : RegIdx) (v : Byte) :
    (s.setReg i v).mem = s.mem := rfl
@[simp] theorem State.setReg_prog (s : State) (i : RegIdx) (v : Byte) :
    (s.setReg i v).prog = s.prog := rfl
@[simp] theorem State.setReg_devState (s : State) (i : RegIdx) (v : Byte) :
    (s.setReg i v).devState = s.devState := rfl

@[simp] theorem State.setRampz_cfg (s : State) (v : Byte) : (s.setRampz v).cfg = s.cfg := rfl
@[simp] theorem State.setRampz_regs (s : State) (v : Byte) : (s.setRampz v).regs = s.regs := rfl
@[simp] theorem State.setRampz_pc (s : State) (v : Byte) : (s.setRampz v).pc = s.pc := rfl
@[simp] theorem State.setRampz_sreg (s : State) (v : Byte) : (s.setRampz v).sreg = s.sreg := rfl
@[simp] theorem State.setRampz_rampz (s : State) (v : Byte) : (s.setRampz v).rampz = .holds v := rfl
@[simp] theorem State.setRampz_mem (s : State) (v : Byte) : (s.setRampz v).mem = s.mem := rfl
@[simp] theorem State.setRampz_prog (s : State) (v : Byte) : (s.setRampz v).prog = s.prog := rfl
@[simp] theorem State.setRampz_devState (s : State) (v : Byte) :
    (s.setRampz v).devState = s.devState := rfl

@[simp] theorem State.memWrite_cfg (s : State) (a : Nat) (v : Byte) :
    (s.memWrite a v).cfg = s.cfg := rfl
@[simp] theorem State.memWrite_regs (s : State) (a : Nat) (v : Byte) :
    (s.memWrite a v).regs = s.regs := rfl
@[simp] theorem State.memWrite_pc (s : State) (a : Nat) (v : Byte) :
    (s.memWrite a v).pc = s.pc := rfl
@[simp] theorem State.memWrite_sreg (s : State) (a : Nat) (v : Byte) :
    (s.memWrite a v).sreg = s.sreg := rfl
@[simp] theorem State.memWrite_rampz (s : State) (a : Nat) (v : Byte) :
    (s.memWrite a v).rampz = s.rampz := rfl
@[simp] theorem State.memWrite_mem (s : State) (a : Nat) (v : Byte) :
    (s.memWrite a v).mem = storeWrite s.mem a v := rfl
@[simp] theorem State.memWrite_prog (s : State) (a : Nat) (v : Byte) :
    (s.memWrite a v).prog = s.prog := rfl
@[simp] theorem State.memWrite_devState (s : State) (a : Nat) (v : Byte) :
    (s.memWrite a v).devState = s.devState := rfl

@[simp] theorem State.placeWord_cfg (s : State) (a : Nat) (w : IWord) :
    (s.placeWord a w).cfg = s.cfg := rfl
@[simp] theorem State.placeWord_regs (s : State) (a : Nat) (w : IWord) :
    (s.placeWord a w).regs = s.regs := rfl
@[simp] theorem State.placeWord_pc (s : State) (a : Nat) (w : IWord) :
    (s.placeWord a w).pc = s.pc := rfl
@[simp] theorem State.placeWord_sreg (s : State) (a : Nat) (w : IWord) :
    (s.placeWord a w).sreg = s.sreg := rfl
@[simp] theorem State.placeWord_rampz (s : State) (a : Nat) (w : IWord) :
    (s.placeWord a w).rampz = s.rampz := rfl
@[simp] theorem State.placeWord_mem (s : State) (a : Nat) (w : IWord) :
    (s.placeWord a w).mem = s.mem := rfl
@[simp] theorem State.placeWord_prog (s : State) (a : Nat) (w : IWord) :
    (s.placeWord a w).prog = storeWrite s.prog a w := rfl
@[simp] theorem State.placeWord_devState (s : State) (a : Nat) (w : IWord) :
    (s.placeWord a w).devState = s.devState := rfl

@[simp] theorem State.advancePc_cfg (s : State) : s.advancePc.cfg = s.cfg := rfl
@[simp] theorem State.advancePc_regs (s : State) : s.advancePc.regs = s.regs := rfl
@[simp] theorem State.advancePc_pc (s : State) :
    s.advancePc.pc = (s.pc + 1) % 2 ^ s.cfg.pcBits := rfl
@[simp] theorem State.advancePc_sreg (s : State) : s.advancePc.sreg = s.sreg := rfl
@[simp] theorem State.advancePc_rampz (s : State) : s.advancePc.rampz = s.rampz := rfl
@[simp] theorem State.advancePc_mem (s : State) : s.advancePc.mem = s.mem := rfl
@[simp] theorem State.advancePc_prog (s : State) : s.advancePc.prog = s.prog := rfl
@[simp] theorem State.advancePc_devState (s : State) : s.advancePc.devState = s.devState := rfl

@[simp] theorem State.setDevState_cfg (s : State) (ds : DevState) :
    (s.setDevState ds).cfg = s.cfg := rfl
@[simp] theorem State.setDevState_regs (s : State) (ds : DevState) :
    (s.setDevState ds).regs = s.regs := rfl
@[simp] theorem State.setDevState_pc (s : State) (ds : DevState) :
    (s.setDevState ds).pc = s.pc := rfl
@[simp] theorem State.setDevState_sreg (s : State) (ds : DevState) :
    (s.setDevState ds).sreg = s.sreg := rfl
@[simp] theorem State.setDevState_rampz (s : State) (ds : DevState) :
    (s.setDevState ds).rampz = s.rampz := rfl
@[simp] theorem State.setDevState_mem (s : State) (ds : DevState) :
    (s.setDevState ds).mem = s.mem := rfl
@[simp] theorem State.setDevState_prog (s : State) (ds : DevState) :
    (s.setDevState ds).prog = s.prog := rfl
@[simp] theorem State.setDevState_devState (s : State) (ds : DevState) :
    (s.setDevState ds).devState = ds := rfl

@[simp] theorem State.withReg_cfg (s : State) (i : RegIdx) (c : ByteCell) :
    (s.withReg i c).cfg = s.cfg := rfl
@[simp] theorem State.withReg_regs (s : State) (i : RegIdx) (c : ByteCell) :
    (s.withReg i c).regs = s.regs.set i.val c := rfl
@[simp] theorem State.withReg_pc (s : State) (i : RegIdx) (c : ByteCell) :
    (s.withReg i c).pc = s.pc := rfl
@[simp] theorem State.withReg_sreg (s : State) (i : RegIdx) (c : ByteCell) :
    (s.withReg i c).sreg = s.sreg := rfl
@[simp] theorem State.withReg_rampz (s : State) (i : RegIdx) (c : ByteCell) :
    (s.withReg i c).rampz = s.rampz := rfl
@[simp] theorem State.withReg_mem (s : State) (i : RegIdx) (c : ByteCell) :
    (s.withReg i c).mem = s.mem := rfl
@[simp] theorem State.withReg_prog (s : State) (i : RegIdx) (c : ByteCell) :
    (s.withReg i c).prog = s.prog := rfl
@[simp] theorem State.withReg_devState (s : State) (i : RegIdx) (c : ByteCell) :
    (s.withReg i c).devState = s.devState := rfl

/-! Registers read back. -/

@[simp] theorem State.reg_setReg_self (s : State) (i : RegIdx) (v : Byte) :
    (s.setReg i v).reg i = .holds v := by
  simp [State.reg]

theorem State.reg_setReg_other (s : State) {i j : RegIdx} (v : Byte) (h : j ≠ i) :
    (s.setReg i v).reg j = s.reg j := by
  have h' : i.val ≠ j.val := fun e => h (Fin.ext e.symm)
  simp [State.reg, Vector.getElem_set_ne, h']

theorem State.reg_setReg (s : State) (i j : RegIdx) (v : Byte) :
    (s.setReg i v).reg j = if j = i then .holds v else s.reg j := by
  by_cases h : j = i
  · subst h; simp
  · simp [h, State.reg_setReg_other s v h]

@[simp] theorem State.reg_setRampz (s : State) (v : Byte) (j : RegIdx) :
    (s.setRampz v).reg j = s.reg j := rfl

@[simp] theorem State.reg_memWrite (s : State) (a : Nat) (v : Byte) (j : RegIdx) :
    (s.memWrite a v).reg j = s.reg j := rfl

@[simp] theorem State.reg_placeWord (s : State) (a : Nat) (w : IWord) (j : RegIdx) :
    (s.placeWord a w).reg j = s.reg j := rfl

@[simp] theorem State.reg_advancePc (s : State) (j : RegIdx) : s.advancePc.reg j = s.reg j := rfl

@[simp] theorem State.reg_setDevState (s : State) (ds : DevState) (j : RegIdx) :
    (s.setDevState ds).reg j = s.reg j := rfl

@[simp] theorem State.setDevState_self (s : State) : s.setDevState s.devState = s := rfl

/-- Two states with the same registers, read one by one, have the same register file. -/
theorem State.regs_ext {s t : State} (h : ∀ j, t.reg j = s.reg j) : t.regs = s.regs := by
  apply Vector.ext
  intro i hi
  exact h ⟨i, hi⟩

/-- Two states that agree on every field, the registers read one by one, are equal. -/
theorem State.eq_of_fields {s t : State} (hcfg : t.cfg = s.cfg) (hreg : ∀ j, t.reg j = s.reg j)
    (hpc : t.pc = s.pc) (hsreg : t.sreg = s.sreg) (hrampz : t.rampz = s.rampz)
    (hmem : t.mem = s.mem) (hprog : t.prog = s.prog) (hdev : t.devState = s.devState) :
    t = s := by
  have hregs := State.regs_ext hreg
  cases s
  cases t
  simp_all

end Sys2Proof.Machine
end

