-- ==== Sys2Proof/Laws/Store.lean ====
section
/-! SUPPORT. Read-after-write for the sparse storage, and that every write keeps its canonical
form. -/

namespace Sys2Proof.Machine

variable {α : Type}

@[simp] theorem storeRead_nil (a : Nat) : storeRead ([] : List (Nat × α)) a = none := rfl

@[simp] theorem storeRead_storeWrite_self (m : List (Nat × α)) (a : Nat) (b : α) :
    storeRead (storeWrite m a b) a = some b := by
  induction m with
  | nil => simp [storeWrite, storeRead]
  | cons e rest ih =>
    obtain ⟨k, v⟩ := e
    by_cases h1 : a < k
    · simp [storeWrite, storeRead, h1]
    · by_cases h2 : a = k
      · simp [storeWrite, storeRead, h2]
      · simp [storeWrite, storeRead, h1, h2, ih]

theorem storeRead_storeWrite_other (m : List (Nat × α)) {a c : Nat} (b : α) (h : c ≠ a) :
    storeRead (storeWrite m a b) c = storeRead m c := by
  induction m with
  | nil => simp [storeWrite, storeRead, h]
  | cons e rest ih =>
    obtain ⟨k, v⟩ := e
    by_cases h1 : a < k
    · simp [storeWrite, storeRead, h1, h]
    · by_cases h2 : a = k
      · subst h2
        simp [storeWrite, storeRead, h]
      · simp [storeWrite, storeRead, h1, h2, ih]

theorem storeAbove_storeWrite (m : List (Nat × α)) {lo a : Nat} (b : α) (h : lo < a)
    (hm : storeAbove lo m = true) : storeAbove lo (storeWrite m a b) = true := by
  induction m generalizing lo with
  | nil => simp [storeWrite, storeAbove, h]
  | cons e rest ih =>
    obtain ⟨k, v⟩ := e
    simp only [storeAbove, Bool.and_eq_true, decide_eq_true_eq] at hm
    by_cases h1 : a < k
    · simp [storeWrite, storeAbove, h1, h, hm.2]
    · by_cases h2 : a = k
      · simp [storeWrite, storeAbove, h2, hm.1, hm.2]
      · have h3 : k < a := by omega
        simp [storeWrite, storeAbove, h1, h2, hm.1, ih h3 hm.2]

/-- A write keeps the keys strictly rising. -/
theorem storeSorted_storeWrite (m : List (Nat × α)) (a : Nat) (b : α)
    (hm : storeSorted m = true) : storeSorted (storeWrite m a b) = true := by
  cases m with
  | nil => rfl
  | cons e rest =>
    obtain ⟨k, v⟩ := e
    by_cases h1 : a < k
    · simpa [storeWrite, storeSorted, storeAbove, h1] using hm
    · by_cases h2 : a = k
      · simpa [storeWrite, storeSorted, h2] using hm
      · have h3 : k < a := by omega
        simpa [storeWrite, storeSorted, h1, h2] using storeAbove_storeWrite rest b h3 hm

/-- Every entry after a write is the new one or one that was there. -/
theorem mem_storeWrite (m : List (Nat × α)) (a : Nat) (b : α) (e : Nat × α)
    (h : e ∈ storeWrite m a b) : e = (a, b) ∨ e ∈ m := by
  induction m with
  | nil => simpa [storeWrite] using h
  | cons f rest ih =>
    obtain ⟨k, v⟩ := f
    by_cases h1 : a < k
    · simpa [storeWrite, h1] using h
    · by_cases h2 : a = k
      · simp only [storeWrite, h2, Nat.lt_irrefl, if_false, if_true, List.mem_cons] at h
        rcases h with h | h
        · exact .inl (by rw [h, h2])
        · exact .inr (List.mem_cons_of_mem _ h)
      · simp only [storeWrite, h1, h2, if_false, List.mem_cons] at h
        rcases h with h | h
        · exact .inr (by rw [h]; exact List.mem_cons_self)
        · rcases ih h with h | h
          · exact .inl h
          · exact .inr (List.mem_cons_of_mem _ h)

end Sys2Proof.Machine
end

