-- ==== Sys2Proof/Laws/Ops.lean ====
section
/-! SUPPORT. What each shared operation can do, said once: sequencing, cells, memory read
back, the data-space write and read. -/

namespace Sys2Proof.Machine

/-! Sequencing. -/

section
variable {α β : Type}

@[simp] theorem andThen_next (a : α) (f : α → Host.Outcome β Fault Refusal) :
    andThen (.next a) f = f a := rfl

@[simp] theorem andThen_fault (r : Fault) (f : α → Host.Outcome β Fault Refusal) :
    andThen (.fault r) f = .fault r := rfl

@[simp] theorem andThen_refused (r : Refusal) (f : α → Host.Outcome β Fault Refusal) :
    andThen (.refused r) f = .refused r := rfl

theorem andThen_eq_next {o : Host.Outcome α Fault Refusal}
    {f : α → Host.Outcome β Fault Refusal} {b : β} :
    andThen o f = .next b ↔ ∃ a, o = .next a ∧ f a = .next b := by
  cases o <;> simp

theorem andThen_eq_fault {o : Host.Outcome α Fault Refusal}
    {f : α → Host.Outcome β Fault Refusal} {r : Fault} :
    andThen o f = .fault r ↔ o = .fault r ∨ ∃ a, o = .next a ∧ f a = .fault r := by
  cases o <;> simp

theorem andThen_eq_refused {o : Host.Outcome α Fault Refusal}
    {f : α → Host.Outcome β Fault Refusal} {r : Refusal} :
    andThen o f = .refused r ↔ o = .refused r ∨ ∃ a, o = .next a ∧ f a = .refused r := by
  cases o <;> simp
end

/-! Cells. -/

@[simp] theorem readCell_holds (l : Location) (b : Byte) : readCell l (.holds b) = .next b := rfl

@[simp] theorem readCell_undef (l : Location) :
    readCell l .undef = .fault (.unwrittenRead l) := rfl

theorem readCell_eq_next {l : Location} {c : ByteCell} {b : Byte} :
    readCell l c = .next b ↔ c = .holds b := by
  cases c <;> simp

theorem readCell_eq_fault {l : Location} {c : ByteCell} {r : Fault} :
    readCell l c = .fault r ↔ c = .undef ∧ r = .unwrittenRead l := by
  cases c <;> simp [eq_comm]

theorem readCell_ne_refused {l : Location} {c : ByteCell} {r : Refusal} :
    readCell l c ≠ .refused r := by
  cases c <;> simp

theorem readMem_eq_next {s : State} {a : Addr} {b : Byte} :
    readMem s a = .next b ↔ s.memByte a.toNat = some b := by
  unfold readMem
  cases s.memByte a.toNat <;> simp

theorem readMem_eq_fault {s : State} {a : Addr} {r : Fault} :
    readMem s a = .fault r ↔ s.memByte a.toNat = none ∧ r = .unwrittenRead (.mem a.toNat) := by
  unfold readMem
  cases s.memByte a.toNat <;> simp [eq_comm]

theorem readMem_ne_refused {s : State} {a : Addr} {r : Refusal} : readMem s a ≠ .refused r := by
  unfold readMem
  cases s.memByte a.toNat <;> simp

/-! Memory read back. -/

@[simp] theorem memByte_memWrite_self (s : State) (a : Nat) (v : Byte) :
    (s.memWrite a v).memByte a = some v := by
  simp [State.memByte]

theorem memByte_memWrite_other (s : State) {a c : Nat} (v : Byte) (h : c ≠ a) :
    (s.memWrite a v).memByte c = s.memByte c := by
  simp [State.memByte, storeRead_storeWrite_other s.mem v h]

@[simp] theorem progRead_placeWord_self (s : State) (a : Nat) (w : IWord) :
    progRead (s.placeWord a w) a = w := by
  simp [progRead]

theorem progRead_congr {s t : State} (h : t.prog = s.prog) (a : Nat) :
    progRead t a = progRead s a := by
  simp [progRead, h]

/-! The data-space write. -/

@[simp] theorem writeIo_cfg (s : State) (a : Addr) (k : Nat) (v : Byte) :
    (writeIo s a k v).cfg = s.cfg := by
  unfold writeIo; split <;> rfl

@[simp] theorem writeIo_pc (s : State) (a : Addr) (k : Nat) (v : Byte) :
    (writeIo s a k v).pc = s.pc := by
  unfold writeIo; split <;> rfl

@[simp] theorem writeIo_sreg (s : State) (a : Addr) (k : Nat) (v : Byte) :
    (writeIo s a k v).sreg = s.sreg := by
  unfold writeIo; split <;> rfl

@[simp] theorem writeIo_regs (s : State) (a : Addr) (k : Nat) (v : Byte) :
    (writeIo s a k v).regs = s.regs := by
  unfold writeIo; split <;> rfl

@[simp] theorem writeIo_mem (s : State) (a : Addr) (k : Nat) (v : Byte) :
    (writeIo s a k v).mem = s.mem := by
  unfold writeIo; split <;> rfl

@[simp] theorem writeIo_prog (s : State) (a : Addr) (k : Nat) (v : Byte) :
    (writeIo s a k v).prog = s.prog := by
  unfold writeIo; split <;> rfl

@[simp] theorem reg_writeIo (s : State) (a : Addr) (k : Nat) (v : Byte) (j : RegIdx) :
    (writeIo s a k v).reg j = s.reg j := by
  unfold writeIo; split <;> rfl

@[simp] theorem dataWrite_cfg (s : State) (a : Addr) (v : Byte) :
    (dataWrite s a v).cfg = s.cfg := by
  unfold dataWrite; split <;> simp

@[simp] theorem dataWrite_pc (s : State) (a : Addr) (v : Byte) :
    (dataWrite s a v).pc = s.pc := by
  unfold dataWrite; split <;> simp

@[simp] theorem dataWrite_sreg (s : State) (a : Addr) (v : Byte) :
    (dataWrite s a v).sreg = s.sreg := by
  unfold dataWrite; split <;> simp

@[simp] theorem dataWrite_prog (s : State) (a : Addr) (v : Byte) :
    (dataWrite s a v).prog = s.prog := by
  unfold dataWrite; split <;> simp

/-- A register is written only through its own location (rules R16, R33). -/
theorem reg_dataWrite (s : State) (a : Addr) (v : Byte) (j : RegIdx) :
    (dataWrite s a v).reg j = if kindAt s.cfg a = .reg j then .holds v else s.reg j := by
  cases hk : kindAt s.cfg a <;> simp [dataWrite, hk, State.reg_setReg, eq_comm]

/-- The data-space memory is written only at addresses of kind `Ram` and `ExtRam`. -/
theorem dataWrite_mem (s : State) (a : Addr) (v : Byte) :
    (dataWrite s a v).mem =
      if isMemKind (kindAt s.cfg a) = true then storeWrite s.mem a.toNat v else s.mem := by
  unfold dataWrite
  split <;> simp_all [isMemKind]

/-- RAMPZ is written only through its own I/O location (rules R14, R25). -/
theorem dataWrite_rampz (s : State) (a : Addr) (v : Byte) :
    (dataWrite s a v).rampz =
      match kindAt s.cfg a with
      | .io _ => if isRampzAddr s.cfg a = true then .holds v else s.rampz
      | _ => s.rampz := by
  cases hk : kindAt s.cfg a <;> simp [dataWrite, hk, writeIo]
  split <;> rfl

/-- The device state changes only through an I/O location other than RAMPZ's (rule R25). -/
theorem dataWrite_devState (s : State) (a : Addr) (v : Byte) :
    (dataWrite s a v).devState =
      match kindAt s.cfg a with
      | .io k => if isRampzAddr s.cfg a = true then s.devState else Config.ioWritten k v s.devState
      | _ => s.devState := by
  cases hk : kindAt s.cfg a <;> simp [dataWrite, hk, writeIo]
  split <;> rfl

/-- A write to the data space keeps the data memory in canonical form, on SRAM addresses only. -/
theorem memOk_dataWrite (s : State) (a : Addr) (v : Byte) (h : memOk s.cfg s.mem = true) :
    memOk s.cfg (dataWrite s a v).mem = true := by
  rw [dataWrite_mem]
  split
  · rename_i hk
    simp only [memOk, Bool.and_eq_true, List.all_eq_true] at h ⊢
    refine ⟨storeSorted_storeWrite _ _ _ h.1, fun e he => ?_⟩
    rcases mem_storeWrite _ _ _ _ he with rfl | he
    · exact hk
    · exact h.2 e he
  · exact h

/-! The data-space read. -/

/-- A data-space read answers exactly the byte rules R23 to R26 give, and changes at most the
device state. -/
theorem dataRead_eq_next {s : State} {a : Addr} {r : Loaded} :
    dataRead s a = .next r ↔
      ∃ b ds, ReadsByte s a b ds ∧ r = ⟨b, s.setDevState ds⟩ := by
  constructor
  · intro h
    unfold dataRead at h
    split at h
    · obtain ⟨b, hb, hr⟩ := andThen_eq_next.1 h
      exact ⟨b, _, .reg ‹_› (readCell_eq_next.1 hb), by simpa [eq_comm] using hr⟩
    · unfold readIo at h
      split at h
      · obtain ⟨b, hb, hr⟩ := andThen_eq_next.1 h
        exact ⟨b, _, .rampz ‹_› ‹_› (readCell_eq_next.1 hb), by simpa [eq_comm] using hr⟩
      · exact ⟨_, _, .io ‹_› (Bool.eq_false_iff.2 ‹_›), by simpa [eq_comm] using h⟩
    · obtain ⟨b, hb, hr⟩ := andThen_eq_next.1 h
      exact ⟨b, _, .ram ‹_› (readMem_eq_next.1 hb), by simpa [eq_comm] using hr⟩
    · obtain ⟨b, hb, hr⟩ := andThen_eq_next.1 h
      exact ⟨b, _, .extRam ‹_› (readMem_eq_next.1 hb), by simpa [eq_comm] using hr⟩
    · exact ⟨_, _, .flash ‹_›, by simpa [eq_comm] using h⟩
    · simp at h
  · rintro ⟨b, ds, h, rfl⟩
    cases h with
    | reg hk hb => simp [dataRead, hk, quietly, hb]
    | rampz hk hz hb => simp [dataRead, hk, readIo, hz, quietly, hb]
    | io hk hz => simp [dataRead, hk, readIo, hz]
    | ram hk hb => simp [dataRead, hk, quietly, readMem_eq_next.2 hb]
    | extRam hk hb => simp [dataRead, hk, quietly, readMem_eq_next.2 hb]
    | flash hk => simp [dataRead, hk]

/-- A data-space read faults exactly where the location holds no value (rule R20). -/
theorem dataRead_eq_fault {s : State} {a : Addr} {r : Fault} :
    dataRead s a = .fault r ↔ ∃ l, HoldsNoByte s a l ∧ r = .unwrittenRead l := by
  constructor
  · intro h
    unfold dataRead at h
    split at h
    · obtain ⟨hc, hr⟩ := readCell_eq_fault.1 ((andThen_eq_fault.1 h).resolve_right (by simp))
      exact ⟨_, .reg ‹_› hc, hr⟩
    · unfold readIo at h
      split at h
      · obtain ⟨hc, hr⟩ := readCell_eq_fault.1 ((andThen_eq_fault.1 h).resolve_right (by simp))
        exact ⟨_, .rampz ‹_› ‹_› hc, hr⟩
      · simp at h
    · obtain ⟨hc, hr⟩ := readMem_eq_fault.1 ((andThen_eq_fault.1 h).resolve_right (by simp))
      exact ⟨_, .ram ‹_› hc, hr⟩
    · obtain ⟨hc, hr⟩ := readMem_eq_fault.1 ((andThen_eq_fault.1 h).resolve_right (by simp))
      exact ⟨_, .extRam ‹_› hc, hr⟩
    · simp at h
    · simp at h
  · rintro ⟨l, h, rfl⟩
    cases h with
    | reg hk hc => simp [dataRead, hk, quietly, hc]
    | rampz hk hz hc => simp [dataRead, hk, readIo, hz, quietly, hc]
    | ram hk hc => simp [dataRead, hk, quietly, readMem_eq_fault.2 ⟨hc, rfl⟩]
    | extRam hk hc => simp [dataRead, hk, quietly, readMem_eq_fault.2 ⟨hc, rfl⟩]

/-- A data-space read is refused exactly where nothing is mapped (rule R27). -/
theorem dataRead_eq_refused {s : State} {a : Addr} {r : Refusal} :
    dataRead s a = .refused r ↔ kindAt s.cfg a = .unmapped ∧ r = .unmappedAddress a := by
  constructor
  · intro h
    unfold dataRead at h
    split at h
    · exact absurd ((andThen_eq_refused.1 h).resolve_right (by simp)) readCell_ne_refused
    · unfold readIo at h
      split at h
      · exact absurd ((andThen_eq_refused.1 h).resolve_right (by simp)) readCell_ne_refused
      · simp at h
    · exact absurd ((andThen_eq_refused.1 h).resolve_right (by simp)) readMem_ne_refused
    · exact absurd ((andThen_eq_refused.1 h).resolve_right (by simp)) readMem_ne_refused
    · simp at h
    · exact ⟨‹_›, by simpa [eq_comm] using h⟩
  · rintro ⟨hk, rfl⟩
    simp [dataRead, hk]

end Sys2Proof.Machine
end

