-- ==== Sys2Proof/Laws/Pointer.lean ====
section
/-! SUPPORT. What reading and writing the pointer can do, and what the pointer arithmetic computes,
in plain numbers. -/

namespace Sys2Proof.Machine

/-! Reading the pointer. -/

theorem readPtrReg_eq_next {s : State} {i : RegIdx} {b : Byte} :
    readPtrReg s i = .next b ↔ s.reg i = .holds b := readCell_eq_next

theorem readPtrReg_eq_fault {s : State} {i : RegIdx} {r : Fault} :
    readPtrReg s i = .fault r ↔ s.reg i = .undef ∧ r = .unwrittenRead (.reg i) :=
  readCell_eq_fault

/-- `PtrGet` answers exactly the pointer the state holds (rule R15). -/
theorem ptrGet_eq_next {s : State} {p : Addr} : ptrGet s = .next p ↔ PointerIs s p := by
  unfold ptrGet PointerIs
  cases s.cfg.ptrWidth
  · simp only [andThen_eq_next, readPtrReg_eq_next, Host.Outcome.next.injEq, regZL]
    refine exists_congr fun lo => and_congr_right fun _ => ?_
    rw [← BitVec.toNat_inj]
    simp only [BitVec.toNat_setWidth]
    omega
  · simp only [andThen_eq_next, readPtrReg_eq_next, Host.Outcome.next.injEq, regZL, regZH]
    refine exists_congr fun lo => ?_
    rw [← exists_and_left]
    refine exists_congr fun hi => and_congr_right fun _ => and_congr_right fun _ => ?_
    rw [← BitVec.toNat_inj]
    have hl := lo.isLt
    have hh := hi.isLt
    simp only [BitVec.toNat_setWidth, BitVec.toNat_append, Nat.shiftLeft_eq]
    rw [← Nat.shiftLeft_eq, ← Nat.shiftLeft_add_eq_or_of_lt hl, Nat.shiftLeft_eq]
    omega
  · simp only [andThen_eq_next, readPtrReg_eq_next, readCell_eq_next, Host.Outcome.next.injEq,
      regZL, regZH]
    refine exists_congr fun lo => ?_
    simp only [← exists_and_left]
    refine exists_congr fun hi => exists_congr fun ext => and_congr_right fun _ =>
      and_congr_right fun _ => and_congr_right fun _ => ?_
    rw [← BitVec.toNat_inj]
    have hl := lo.isLt
    have hh := hi.isLt
    have he := ext.isLt
    simp only [BitVec.toNat_append]
    rw [← Nat.shiftLeft_add_eq_or_of_lt hl, ← Nat.shiftLeft_add_eq_or_of_lt hh]
    simp only [Nat.shiftLeft_eq]
    omega

/-- `PtrGet` faults exactly at the first pointer byte that holds no value (rules R20, R62). -/
theorem ptrGet_eq_fault {s : State} {r : Fault} :
    ptrGet s = .fault r ↔ ∃ l, PointerLacks s l ∧ r = .unwrittenRead l := by
  constructor
  · intro h
    unfold ptrGet at h
    split at h
    · simp only [andThen_eq_fault, readPtrReg_eq_fault, reduceCtorEq, and_false, exists_false,
        or_false] at h
      exact ⟨_, .low h.1, h.2⟩
    · simp only [andThen_eq_fault, readPtrReg_eq_fault, readPtrReg_eq_next, reduceCtorEq,
        and_false, exists_false, or_false] at h
      rcases h with h | ⟨lo, hl, h⟩
      · exact ⟨_, .low h.1, h.2⟩
      · exact ⟨_, .high (by simp [*]) hl h.1, h.2⟩
    · simp only [andThen_eq_fault, readPtrReg_eq_fault, readPtrReg_eq_next, readCell_eq_fault,
        reduceCtorEq, and_false, exists_false, or_false] at h
      rcases h with h | ⟨lo, hl, h | ⟨hi, hh, h⟩⟩
      · exact ⟨_, .low h.1, h.2⟩
      · exact ⟨_, .high (by simp [*]) hl h.1, h.2⟩
      · exact ⟨_, .ext ‹_› hl hh h.1, h.2⟩
  · rintro ⟨l, h, rfl⟩
    unfold ptrGet readPtrReg
    cases h with
    | low h => split <;> simp [regZL, h]
    | high hw hl h => split <;> simp_all [regZL, regZH]
    | ext hw hl hh h => simp [hw, regZL, regZH, hl, hh, h]

theorem ptrGet_ne_refused {s : State} {r : Refusal} : ptrGet s ≠ .refused r := by
  unfold ptrGet readPtrReg
  split <;> simp [andThen_eq_refused, readCell_ne_refused]

/-- A state holds at most one pointer. -/
theorem PointerIs.unique {s : State} {p q : Addr} (hp : PointerIs s p) (hq : PointerIs s q) :
    p = q := by
  have h := (ptrGet_eq_next.2 hp).symm.trans (ptrGet_eq_next.2 hq)
  simpa using h

/-- The pointer fits in `PTR_WIDTH` bits. -/
theorem PointerIs.lt {s : State} {p : Addr} (hp : PointerIs s p) :
    p.toNat < 2 ^ s.cfg.ptrWidth.bits := by
  unfold PointerIs at hp
  split at hp
  · obtain ⟨lo, -, h⟩ := hp
    simp only [PtrWidth.bits, *]
    exact lo.isLt
  · obtain ⟨lo, hi, -, -, h⟩ := hp
    have hl := lo.isLt
    have hh := hi.isLt
    simp only [PtrWidth.bits, *]
    omega
  · simp only [PtrWidth.bits, *]
    exact p.isLt

/-! Writing the pointer. -/

@[simp] theorem ptrSet_cfg (s : State) (v : Addr) : (ptrSet s v).cfg = s.cfg := by
  unfold ptrSet; split <;> rfl

@[simp] theorem ptrSet_pc (s : State) (v : Addr) : (ptrSet s v).pc = s.pc := by
  unfold ptrSet; split <;> rfl

@[simp] theorem ptrSet_sreg (s : State) (v : Addr) : (ptrSet s v).sreg = s.sreg := by
  unfold ptrSet; split <;> rfl

@[simp] theorem ptrSet_mem (s : State) (v : Addr) : (ptrSet s v).mem = s.mem := by
  unfold ptrSet; split <;> rfl

@[simp] theorem ptrSet_prog (s : State) (v : Addr) : (ptrSet s v).prog = s.prog := by
  unfold ptrSet; split <;> rfl

@[simp] theorem ptrSet_devState (s : State) (v : Addr) :
    (ptrSet s v).devState = s.devState := by
  unfold ptrSet; split <;> rfl

/-- RAMPZ is written only at pointer width 24 (rule R15). -/
theorem ptrSet_rampz (s : State) (v : Addr) :
    (ptrSet s v).rampz =
      if s.cfg.ptrWidth = .w24 then .holds (v.extractLsb' 16 8) else s.rampz := by
  unfold ptrSet; split <;> simp [*]

/-- Register 30 always, register 31 except at pointer width 8, no other (rule R15). -/
theorem reg_ptrSet (s : State) (v : Addr) (j : RegIdx) :
    (ptrSet s v).reg j =
      if j = 30 then .holds (v.extractLsb' 0 8)
      else if j = 31 ∧ s.cfg.ptrWidth ≠ .w8 then .holds (v.extractLsb' 8 8)
      else s.reg j := by
  have h : (30 : RegIdx) ≠ 31 := by decide
  unfold ptrSet
  split <;> simp only [State.reg_setReg, State.reg_setRampz, regZL, regZH, *]
  · simp
  · by_cases h1 : j = 31
    · subst h1; simp
    · simp [h1]
  · by_cases h1 : j = 31
    · subst h1; simp
    · simp [h1]

theorem truncPtr_toNat (w : PtrWidth) (v : Addr) :
    (truncPtr w v).toNat = v.toNat % 2 ^ w.bits := by
  have := v.isLt
  cases w <;> simp only [truncPtr, PtrWidth.bits, BitVec.toNat_setWidth] <;> omega

/-- What `PtrSet` writes, `PtrGet` reads back, modulo `2^W` (rule R15). -/
theorem pointerIs_ptrSet (s : State) (v : Addr) :
    PointerIs (ptrSet s v) (truncPtr s.cfg.ptrWidth v) := by
  have h31 : ¬ (31 : RegIdx) = 30 := by decide
  have hv := v.isLt
  unfold PointerIs
  simp only [truncPtr_toNat, reg_ptrSet, ptrSet_cfg, ptrSet_rampz]
  split <;> simp only [*, PtrWidth.bits]
  · exact ⟨_, rfl, by simp [BitVec.extractLsb'_toNat]⟩
  · refine ⟨_, _, rfl, rfl, ?_⟩
    simp only [BitVec.extractLsb'_toNat, Nat.shiftRight_eq_div_pow]
    omega
  · refine ⟨_, _, _, rfl, rfl, rfl, ?_⟩
    simp only [BitVec.extractLsb'_toNat, Nat.shiftRight_eq_div_pow]
    omega

/-- `PointerIs` reads only the device, registers 30 and 31, and RAMPZ. -/
theorem pointerIs_congr {s t : State} (hc : t.cfg = s.cfg) (h30 : t.reg 30 = s.reg 30)
    (h31 : t.reg 31 = s.reg 31) (hr : t.rampz = s.rampz) (p : Addr) :
    PointerIs t p ↔ PointerIs s p := by
  simp [PointerIs, hc, h30, h31, hr]

/-! Pointer arithmetic (rules R22, R56). -/

theorem ptrInc_eq (w : PtrWidth) (p : Addr) :
    ptrInc w p = BitVec.ofNat 24 ((p.toNat + 1) % 2 ^ w.bits) := by
  have := p.isLt
  rw [← BitVec.toNat_inj]
  have h1 : (1 : Addr).toNat = 1 := rfl
  cases w <;> simp only [ptrInc, truncPtr_toNat, PtrWidth.bits, BitVec.toNat_add,
    BitVec.toNat_ofNat, h1] <;> omega

theorem ptrDec_eq (w : PtrWidth) (p : Addr) :
    ptrDec w p = BitVec.ofNat 24 ((p.toNat + 2 ^ w.bits - 1) % 2 ^ w.bits) := by
  have := p.isLt
  rw [← BitVec.toNat_inj]
  have h1 : (1 : Addr).toNat = 1 := rfl
  cases w <;> simp only [ptrDec, truncPtr_toNat, PtrWidth.bits, BitVec.toNat_sub,
    BitVec.toNat_ofNat, h1] <;> omega

/-- The displacement sum: refused exactly where it carries out of an 8-bit pointer, else the sum
modulo `2^W` (rule R22). -/
theorem dispAddr_eq (w : PtrWidth) (p : Addr) (q : BitVec 6) (hp : p.toNat < 2 ^ w.bits) :
    dispAddr w p q =
      if w = .w8 ∧ 256 ≤ p.toNat + q.toNat then .refused (.disp8Carry (p.setWidth 8) q)
      else .next (BitVec.ofNat 24 ((p.toNat + q.toNat) % 2 ^ w.bits)) := by
  have hq := q.isLt
  have hp' := p.isLt
  cases w
  · simp only [PtrWidth.bits] at hp
    have hc : (256#9 ≤ (p.setWidth 8).setWidth 9 + q.setWidth 9) ↔ 256 ≤ p.toNat + q.toNat := by
      rw [BitVec.le_def]
      simp only [BitVec.toNat_add, BitVec.toNat_setWidth, BitVec.toNat_ofNat]
      omega
    simp only [dispAddr, hc, true_and, PtrWidth.bits]
    split
    · rfl
    · congr 1
      rw [← BitVec.toNat_inj]
      simp only [BitVec.toNat_add, BitVec.toNat_setWidth, BitVec.toNat_ofNat]
      omega
  all_goals
    simp only [dispAddr, reduceCtorEq, false_and, if_false]
    congr 1
    rw [← BitVec.toNat_inj]
    simp only [truncPtr_toNat, PtrWidth.bits, BitVec.toNat_add, BitVec.toNat_setWidth,
      BitVec.toNat_ofNat]
    omega

end Sys2Proof.Machine
end

