-- ==== Sys2Proof/Laws/Exec.lean ====
section
/-! SUPPORT. What each form can do, said once: the exact next state of each meaning, over the
spec's own relations. -/

namespace Sys2Proof.Machine

theorem isPtrHalf_eq (d : RegIdx) : isPtrHalf d = decide (d = 30 ∨ d = 31) := rfl

/-- Form (i) completes exactly so (rule R50). -/
theorem execLdZ_eq_next {d : RegIdx} {s t : State} :
    execLdZ d s = .next t ↔ ∃ p b ds, PointerIs s p ∧ ReadsByte s p b ds ∧
      t = ((s.setDevState ds).setReg d b).advancePc := by
  simp only [execLdZ, andThen_eq_next, ptrGet_eq_next, dataRead_eq_next]
  constructor
  · rintro ⟨p, hp, r, ⟨b, ds, hr, rfl⟩, ht⟩
    exact ⟨p, b, ds, hp, hr, by simpa [eq_comm] using ht⟩
  · rintro ⟨p, b, ds, hp, hr, rfl⟩
    exact ⟨p, hp, _, ⟨b, ds, hr, rfl⟩, rfl⟩

/-- Form (ii) completes exactly so (rule R51). -/
theorem execLdZInc_eq_next {d : RegIdx} {s t : State} :
    execLdZInc d s = .next t ↔ ¬ (d = 30 ∨ d = 31) ∧ ∃ p b ds, PointerIs s p ∧
      ReadsByte s p b ds ∧
      t = (ptrSet ((s.setDevState ds).setReg d b) (ptrInc s.cfg.ptrWidth p)).advancePc := by
  unfold execLdZInc
  by_cases hd : d = 30 ∨ d = 31
  · simp [isPtrHalf_eq, hd]
  · simp only [isPtrHalf_eq, hd, decide_false, Bool.false_eq_true, if_false, andThen_eq_next,
      ptrGet_eq_next, dataRead_eq_next, not_false_eq_true, true_and]
    constructor
    · rintro ⟨p, hp, r, ⟨b, ds, hr, rfl⟩, ht⟩
      exact ⟨p, b, ds, hp, hr, by simpa [eq_comm] using ht⟩
    · rintro ⟨p, b, ds, hp, hr, rfl⟩
      exact ⟨p, hp, _, ⟨b, ds, hr, rfl⟩, rfl⟩

/-- Form (iii) completes exactly so (rule R52). -/
theorem execLdZDec_eq_next {d : RegIdx} {s t : State} :
    execLdZDec d s = .next t ↔ ¬ (d = 30 ∨ d = 31) ∧ ∃ p b ds, PointerIs s p ∧
      ReadsByte (ptrSet s (ptrDec s.cfg.ptrWidth p)) (ptrDec s.cfg.ptrWidth p) b ds ∧
      t = (((ptrSet s (ptrDec s.cfg.ptrWidth p)).setDevState ds).setReg d b).advancePc := by
  unfold execLdZDec
  by_cases hd : d = 30 ∨ d = 31
  · simp [isPtrHalf_eq, hd]
  · simp only [isPtrHalf_eq, hd, decide_false, Bool.false_eq_true, if_false, andThen_eq_next,
      ptrGet_eq_next, dataRead_eq_next, not_false_eq_true, true_and]
    constructor
    · rintro ⟨p, hp, r, ⟨b, ds, hr, rfl⟩, ht⟩
      exact ⟨p, b, ds, hp, hr, by simpa [eq_comm] using ht⟩
    · rintro ⟨p, b, ds, hp, hr, rfl⟩
      exact ⟨p, hp, _, ⟨b, ds, hr, rfl⟩, rfl⟩

/-- Form (iiii) completes exactly so (rule R53). -/
theorem execLddZ_eq_next {d : RegIdx} {q : BitVec 6} {s t : State} :
    execLddZ d q s = .next t ↔ ∃ p ea b ds, PointerIs s p ∧
      dispAddr s.cfg.ptrWidth p q = .next ea ∧ ReadsByte s ea b ds ∧
      t = ((s.setDevState ds).setReg d b).advancePc := by
  simp only [execLddZ, andThen_eq_next, ptrGet_eq_next, dataRead_eq_next]
  constructor
  · rintro ⟨p, hp, ea, he, r, ⟨b, ds, hr, rfl⟩, ht⟩
    exact ⟨p, ea, b, ds, hp, he, hr, by simpa [eq_comm] using ht⟩
  · rintro ⟨p, ea, b, ds, hp, he, hr, rfl⟩
    exact ⟨p, hp, ea, he, _, ⟨b, ds, hr, rfl⟩, rfl⟩

/-- The effective address of form (iiii), where it is not refused (rule R22). -/
theorem dispAddr_eq_next {s : State} {p ea : Addr} {q : BitVec 6} (hp : PointerIs s p) :
    dispAddr s.cfg.ptrWidth p q = .next ea ↔
      ¬ (s.cfg.ptrWidth = .w8 ∧ 256 ≤ p.toNat + q.toNat) ∧
      ea = BitVec.ofNat 24 ((p.toNat + q.toNat) % 2 ^ s.cfg.ptrWidth.bits) := by
  rw [dispAddr_eq _ _ _ hp.lt]
  by_cases h : s.cfg.ptrWidth = .w8 ∧ 256 ≤ p.toNat + q.toNat
  · rw [if_pos h]
    exact ⟨fun e => (nomatch e), fun e => absurd h e.1⟩
  · rw [if_neg h]
    exact ⟨fun e => ⟨h, (Host.Outcome.next.inj e).symm⟩, fun e => by rw [e.2]⟩

/-- A step that completes runs the meaning of the instruction it fetched (rule R49). -/
theorem step_eq_next {s t : State} :
    step s = .next t ↔ ∃ i, fetchInstr s = .next i ∧ exec i s = .next t := andThen_eq_next

/-- What the fetch can answer: the decoded instruction of the word at the program counter, its form
one the device has (rules R44, R45, R49). -/
theorem fetchInstr_eq_next {s : State} {i : Instr} :
    fetchInstr s = .next i ↔
      ∃ w, Fetches s w ∧ decode w = .instr i ∧ hasForm s.cfg i.form = true := by
  simp only [fetchInstr, andThen_eq_next, Fetches]
  constructor
  · rintro ⟨w, hw, j, hj, hi⟩
    unfold fetchWord at hw
    unfold decodeWord at hj
    unfold checkForm at hi
    split at hw
    · cases hw
    · split at hj
      · split at hi
        · cases hw
          cases hj
          cases hi
          exact ⟨_, ⟨by omega, rfl⟩, ‹_›, ‹_›⟩
        · cases hi
      · cases hj
  · rintro ⟨w, ⟨h1, h2⟩, h3, h4⟩
    refine ⟨w, ?_, i, by simp [decodeWord, h3], by simp [checkForm, h4]⟩
    simp [fetchWord, h2, Nat.not_le.2 h1]

end Sys2Proof.Machine
end

