-- ==== Sys2Proof/Laws/PerInstr.lean ====
section
/-! SUPPORT. Facts stated of every instruction as syntax, one lemma per constructor. -/

namespace Sys2Proof.Laws

/-- The word of an instruction has the fixed bits of its own row of the opcode table (rules R38 to
R41). -/
def EncodingFitsRow.Statement (i : Instr) : Prop :=
  i.form.row.fits (encode i) = true

theorem EncodingFitsRow.ldZ (d : RegIdx) : EncodingFitsRow.Statement (.ldZ d) := by
  revert d; unfold EncodingFitsRow.Statement; decide

theorem EncodingFitsRow.ldZInc (d : RegIdx) : EncodingFitsRow.Statement (.ldZInc d) := by
  revert d; unfold EncodingFitsRow.Statement; decide

theorem EncodingFitsRow.ldZDec (d : RegIdx) : EncodingFitsRow.Statement (.ldZDec d) := by
  revert d; unfold EncodingFitsRow.Statement; decide

theorem placeD_and_lddMask (d : RegIdx) : placeD d &&& 0xD208#16 = 0#16 := by
  revert d; decide

theorem placeQ_and_lddMask (q : BitVec 6) : placeQ q &&& 0xD208#16 = 0#16 := by
  revert q; decide

theorem or_or_and (a b c m : IWord) :
    (a ||| b ||| c) &&& m = a &&& m ||| b &&& m ||| c &&& m := by
  ext j
  simp [Bool.and_or_distrib_right]

theorem EncodingFitsRow.lddZ (d : RegIdx) (q : BitVec 6) :
    EncodingFitsRow.Statement (.lddZ d q) := by
  simp [EncodingFitsRow.Statement, OpRow.fits, Instr.form, Form.row, encode, or_or_and,
    placeD_and_lddMask, placeQ_and_lddMask]

end Sys2Proof.Laws
end

