-- ==== Sys2Proof/Tests/Slice0.lean ====
section
/-! SUPPORT. Tests. Every expected value is a worked example or a derived vector of
`95_test_vectors.md` (its id stands in the test's name or docstring), or is calculated by hand from
the rule named. -/

namespace Sys2Proof.Tests

open Sys2Proof.Machine

/-! ## Small states -/

/-- The device of the vectors: one kind of memory at every address. -/
def flat (w : PtrWidth) (kind : RegionKind) : Device :=
  { classicDevice with ptrWidth := w, dataMap := [⟨0, 2 ^ w.bits, kind⟩] }

/-- A device with the classic layout and RAMPZ at I/O address 0x5B. -/
def wide : Device :=
  { classicDevice with
    ptrWidth := .w24
    dataMap := [⟨0x0000, 0x0020, .regs 0⟩, ⟨0x0020, 0x0040, .io 0⟩, ⟨0x0060, 0xFFFFA0, .ram⟩]
    rampzAddr := some 0x5B }

/-- A launch state at program word 5: no register holds a value but r30 and r31. -/
def at5 (c : Device) (r30 r31 : ByteCell) (mem : List Host.Cell) : State :=
  { State.undefReset c [] 7 with
    pc := 5
    mem := mem
    regs := ((Vector.replicate 32 ByteCell.undef).set 30 r30).set 31 r31 }

/-- The same with a word at the program counter. -/
def withWord (s : State) (w : IWord) : State := s.placeWord s.pc w

/-- The register a completed step leaves; `none` where it does not complete. -/
def regAfter (o : Host.Outcome State Fault Refusal) (i : RegIdx) : Option ByteCell :=
  match o with
  | .next t => some (t.reg i)
  | _ => none

/-- The pointer a completed step leaves. -/
def ptrAfter (o : Host.Outcome State Fault Refusal) : Option Nat :=
  match o with
  | .next t => match ptrGet t with
    | .next p => some p.toNat
    | _ => none
  | _ => none

/-- RAMPZ after a completed step. -/
def rampzAfter (o : Host.Outcome State Fault Refusal) : Option ByteCell :=
  match o with
  | .next t => some t.rampz
  | _ => none

/-- The program counter after a completed step. -/
def pcAfter (o : Host.Outcome State Fault Refusal) : Option Nat :=
  match o with
  | .next t => some t.pc
  | _ => none

/-- The fault a step ends in. -/
def faultOf (o : Host.Outcome State Fault Refusal) : Option Fault :=
  match o with
  | .fault f => some f
  | _ => none

/-- The refusal a step ends in. -/
def refusalOf (o : Host.Outcome State Fault Refusal) : Option Refusal :=
  match o with
  | .refused r => some r
  | _ => none

/-! ## Well-formedness: the one check, and an ill-formed term it refuses -/

theorem test_wellFormed_refuses_displacement_zero :
    Instr.wellFormed (.lddZ 4 0) = false := by decide

theorem test_wellFormed_accepts_displacement_63 :
    Instr.wellFormed (.lddZ 31 63) = true := by decide

/-! ## Decoding: words written out from the patterns of rules R38 to R41 -/

/-- `1000 000d dddd 0000` with `d = 10001`. -/
theorem test_decode_ldZ : decode 0b1000000100010000#16 = .instr (.ldZ 17) := by decide

/-- `1001 000d dddd 0001` with `d = 01010`. -/
theorem test_decode_ldZInc : decode 0b1001000010100001#16 = .instr (.ldZInc 10) := by decide

/-- `1001 000d dddd 0010` with `d = 10001` (VE5). -/
theorem test_decode_ldZDec : decode 0b1001000100010010#16 = .instr (.ldZDec 17) := by decide

/-- `10q0 qq0d dddd 0qqq` with `q = 101010`, `d = 10101` (VE12). -/
theorem test_decode_lddZ : decode 0b1010010101010010#16 = .instr (.lddZ 21 42) := by decide

/-- Each bit of `q` alone: VE6, VE7, VE8, VE10, and bits 1 and 2 by rule R41. -/
theorem test_decode_q_bits :
    [0x8001#16, 0x8002#16, 0x8004#16, 0x8400#16, 0x8800#16, 0xA000#16].map decode =
      [.instr (.lddZ 0 1), .instr (.lddZ 0 2), .instr (.lddZ 0 4), .instr (.lddZ 0 8),
        .instr (.lddZ 0 16), .instr (.lddZ 0 32)] := by decide

/-- VE15 to VE21: words of no pattern. -/
theorem test_decode_unknown :
    [0x8008#16, 0x8200#16, 0x9000#16, 0x9003#16, 0x9201#16, 0xB000#16, 0x0000#16,
      0xFFFF#16].all (fun w => decide (decode w = .unknown w)) = true := by decide

theorem test_decodeTableWord_ldd : decodeTableWord 16 0xADF7 = some (.lddZ 31 63) := by decide

/-- VE9. -/
theorem test_assemble_ldd_zero : assemble (.lddZ 0 0) = 0x8000#16 := by decide

theorem test_assembly_text : (disassemble (.lddZ 4 2)).text = "LDD r4, Z+2" := by decide

/-! ## Form (i) -/

/-- VA7: at pointer width 24 the byte comes from the segment RAMPZ names. -/
theorem test_ldZ_rampz :
    regAfter (exec (.ldZ 0)
      { at5 (flat .w24 .ram) (.holds 0x10) (.holds 0) [(0x10, 0x44), (0x020010, 0x33)] with
        rampz := .holds 2 }) 0 = some (.holds 0x33) := by decide

/-- VA4: a load into r30 replaces the low byte of the pointer. -/
theorem test_ldZ_into_r30 :
    ptrAfter (exec (.ldZ 30) (at5 (flat .w16 .ram) (.holds 0x34) (.holds 0x12)
      [(0x1234, 0xFF)])) = some 0x12FF := by decide

/-! ## Form (ii) -/

/-- VB3: the pointer wraps at 64K. -/
theorem test_ldZInc_wraps :
    ptrAfter (exec (.ldZInc 5) (at5 (flat .w16 .ram) (.holds 0xFF) (.holds 0xFF)
      [(0xFFFF, 0x77)])) = some 0 := by decide

/-- VB4: at pointer width 24 the increment carries into RAMPZ. -/
theorem test_ldZInc_carries_into_rampz :
    rampzAfter (exec (.ldZInc 5)
      { at5 (flat .w24 .ram) (.holds 0xFF) (.holds 0xFF) [(0xFFFF, 0x77)] with
        rampz := .holds 0 }) = some (.holds 1) := by decide

/-! ## Form (iii) -/

/-- VS3: the read sees the decremented low byte of the pointer. -/
theorem test_ldZDec_reads_decremented :
    regAfter (exec (.ldZDec 0) (at5 classicDevice (.holds 0x1F) (.holds 0) [])) 0 =
      some (.holds 0x1E) := by decide

/-- VC6: at pointer width 8 register 31 is left alone. -/
theorem test_ldZDec_leaves_r31_at_w8 :
    regAfter (exec (.ldZDec 3) (at5 (flat .w8 .ram) (.holds 0) (.holds 0xAB) [(0xFF, 0x37)])) 31 =
      some (.holds 0xAB) := by decide

/-! ## Form (iiii) -/

/-- VD4: the address wraps inside the 64K segment. -/
theorem test_lddZ_wraps :
    regAfter (exec (.lddZ 0 1) (at5 (flat .w16 .ram) (.holds 0xFF) (.holds 0xFF)
      [(0x0000, 0x51)])) 0 = some (.holds 0x51) := by decide

/-- VD8 and VF4: the refused carry, before the map is looked at. -/
theorem test_lddZ_carry_refused :
    refusalOf (exec (.lddZ 0 32)
      (at5 { flat .w8 .ram with dataMap := [] } (.holds 0xE0) .undef [])) =
      some (.disp8Carry 0xE0 32) := by decide

/-! ## Memory, timing, the host's interface -/

/-- A byte read back after a write between two others, and the canonical order kept. -/
theorem test_storeWrite_keeps_order :
    storeWrite [(1, 0xAA#8), (5, 0xBB#8)] 3 0xCC#8 = [(1, 0xAA#8), (3, 0xCC#8), (5, 0xBB#8)] := by
  decide

/-- Rule R71's table, the cell "2/3*" of form (iii) on XMEGA. -/
theorem test_cycles_xmega : cycles .xmega .iii .ram = some 3 := by decide

/-- A word placed by the host runs as the first instruction after reset: `LD r5, Z+` with Z = 0
loads r0 and leaves Z = 1. -/
theorem test_reset_runs_first_word :
    ptrAfter (step (State.reset.withFetchWord 16 0x9051)) = some 1 := by decide

/-! ## Witnesses: states and operands that meet the hypotheses of each statement -/

/-- The state of vectors VB1 and VC1: Z = 0x0201. -/
def z0201 : State :=
  at5 (flat .w16 .ram) (.holds 0x01) (.holds 0x02) [(0x0200, 0x31), (0x0201, 0x32)]

theorem witness_pointer_w16 : PointerIs z0201 0x0201 := ptrGet_eq_next.1 rfl

theorem witness_read_ram : ReadsByte z0201 0x0201 0x32 7 := .ram rfl rfl

/-- LdZLoadsTheByteAtThePointer; and it completes. -/
theorem witness_ldZ : PointerIs z0201 0x0201 ∧ ReadsByte z0201 0x0201 0x32 7 :=
  ⟨witness_pointer_w16, witness_read_ram⟩

/-- The pointer at the top of its range: Z = 0xFFFF at pointer width 16. -/
def zFFFF : State := at5 (flat .w16 .ram) (.holds 0xFF) (.holds 0xFF) [(0, 0x51), (0xFFFF, 0x77)]

/-- LdZIncLoadsThenIncrements, at the wrap. -/
theorem witness_ldZInc : (5 : RegIdx) ≠ 30 ∧ (5 : RegIdx) ≠ 31 ∧ PointerIs zFFFF 0xFFFF ∧
    ReadsByte zFFFF 0xFFFF 0x77 7 :=
  ⟨by decide, by decide, ptrGet_eq_next.1 rfl, .ram rfl rfl⟩

/-- The clause of LdZIncLoadsThenIncrements at pointer width 8 (VB7). -/
theorem witness_ldZInc_w8 :
    (at5 (flat .w8 .ram) (.holds 0xFF) (.holds 0xAB) [(0xFF, 0x21)]).cfg.ptrWidth = .w8 ∧
    PointerIs (at5 (flat .w8 .ram) (.holds 0xFF) (.holds 0xAB) [(0xFF, 0x21)]) 0xFF ∧
    ReadsByte (at5 (flat .w8 .ram) (.holds 0xFF) (.holds 0xAB) [(0xFF, 0x21)]) 0xFF 0x21 7 :=
  ⟨rfl, ptrGet_eq_next.1 rfl, .ram rfl rfl⟩

/-- The pointer at the bottom of its range: Z = 0 at pointer width 16. -/
def z0000 : State := at5 (flat .w16 .ram) (.holds 0) (.holds 0) [(0x003F, 0x55), (0xFFFF, 0x34)]

/-- LdZDecDecrementsThenLoads, at the borrow (VC3). -/
theorem witness_ldZDec : (3 : RegIdx) ≠ 30 ∧ (3 : RegIdx) ≠ 31 ∧ PointerIs z0000 0 ∧
    (0xFFFF : Addr).toNat = ((0 : Addr).toNat + 2 ^ z0000.cfg.ptrWidth.bits - 1) %
      2 ^ z0000.cfg.ptrWidth.bits ∧
    ReadsByte (ptrSet z0000 0xFFFF) 0xFFFF 0x34 7 :=
  ⟨by decide, by decide, ptrGet_eq_next.1 rfl, rfl, .ram rfl rfl⟩

/-- LddZLoadsAtTheDisplacement, at the largest displacement (VD11). -/
theorem witness_lddZ : PointerIs z0000 0 ∧
    ¬ (z0000.cfg.ptrWidth = .w8 ∧ 256 ≤ (0 : Addr).toNat + (63 : BitVec 6).toNat) ∧
    (0x3F : Addr).toNat = ((0 : Addr).toNat + (63 : BitVec 6).toNat) %
      2 ^ z0000.cfg.ptrWidth.bits ∧ ReadsByte z0000 0x3F 0x55 7 :=
  ⟨ptrGet_eq_next.1 rfl, by decide, rfl, .ram rfl rfl⟩

/-- The state of VD7: x[30] = 0xDF at pointer width 8. -/
def zDF : State := at5 (flat .w8 .ram) (.holds 0xDF) .undef [(0xFF, 0x54)]

/-- LddZLoadsAtTheDisplacement at the last address below the refused carry (VD7). -/
theorem witness_lddZ_w8 : PointerIs zDF 0xDF ∧
    ¬ (zDF.cfg.ptrWidth = .w8 ∧ 256 ≤ (0xDF : Addr).toNat + (32 : BitVec 6).toNat) ∧
    (0xFF : Addr).toNat = ((0xDF : Addr).toNat + (32 : BitVec 6).toNat) %
      2 ^ zDF.cfg.ptrWidth.bits ∧ ReadsByte zDF 0xFF 0x54 7 :=
  ⟨ptrGet_eq_next.1 rfl, by decide, rfl, .ram rfl rfl⟩

/-- StepRunsTheDecodedInstruction. -/
theorem witness_step_runs : Fetches (withWord z0201 0x9051) 0x9051 ∧
    decode 0x9051#16 = .instr (.ldZInc 5) ∧
    (Instr.ldZInc 5).form ∈ (withWord z0201 0x9051).cfg.forms ∧
    ¬ ((withWord z0201 0x9051).cfg.core = .avr8l ∧ (Instr.ldZInc 5).form = .iiii) :=
  ⟨⟨by decide, rfl⟩, by decide, by decide, by decide⟩

/-- PlacedTableWordIsTheNextInstruction. -/
theorem witness_placed : z0201.pc < z0201.cfg.progWords ∧
    decodeTableWord 16 0x9051 = some (.ldZInc 5) ∧
    hasForm z0201.cfg (Instr.ldZInc 5).form = true := by decide

/-- CompletedStepAdvancesPcByOne, StepKeepsTheStateWellFormed: a well-formed state whose step
completes, the program counter at its last value, where it wraps. -/
def lastWord : State :=
  withWord { z0201 with cfg := { z0201.cfg with pcBits := 15 }, pc := 32767 } 0x9051

theorem witness_step_completes : lastWord.wf = true ∧ pcAfter (step lastWord) = some 0 := by decide

/-- ExecCompletesExactlyAsTheRulesSay, ExecChangesOnlyItsTargets: an instruction that completes,
with a register it may not change. -/
theorem witness_exec_completes : regAfter (exec (.ldZInc 5) z0201) 5 = some (.holds 0x32) ∧
    ¬ mayWriteReg z0201.cfg.ptrWidth (.ldZInc 5) 29 := by
  refine ⟨by decide, ?_⟩
  unfold mayWriteReg
  decide

/-- The clauses of ExecChangesOnlyItsTargets on RAMPZ and on the device state. -/
theorem witness_exec_rampz_and_device :
    rampzAfter (exec (.ldZDec 5) { at5 wide (.holds 0) (.holds 0) [(0xFFFF, 1)] with
      rampz := .holds 1 }) = some (.holds 0) ∧
    PointerIs z0201 0x0201 ∧ kindAt z0201.cfg (effectiveAddr .w16 0x0201 (.ldZInc 5)) = .ram :=
  ⟨by decide, witness_pointer_w16, by decide⟩

/-- UnavailableFormsAreRefused, both clauses: VF1's device, and VD9. -/
theorem witness_unavailable :
    (Fetches (withWord { z0201 with cfg := { z0201.cfg with forms := [.i] } } 0x91E1) 0x91E1 ∧
      decode 0x91E1#16 = .instr (.ldZInc 30) ∧ (Instr.ldZInc 30).form ∉ [Form.i]) ∧
    Fetches (withWord { z0201 with cfg := { z0201.cfg with core := .avr8l } } 0x8042) 0x8042 ∧
    decode 0x8042#16 = .instr (.lddZ 4 2) :=
  ⟨⟨⟨by decide, rfl⟩, by decide, by decide⟩, ⟨by decide, rfl⟩, by decide⟩

/-- WordsOfNoPatternAreRefused, each clause (VE15, VE16, VE17 and the last neighbour 0x900F). -/
theorem witness_unknown_words :
    (0x8008#16 &&& 0xFE0F#16 ≠ 0x8000#16 ∧ 0x8008#16 &&& 0xFE0F#16 ≠ 0x9001#16 ∧
      0x8008#16 &&& 0xFE0F#16 ≠ 0x9002#16 ∧ 0x8008#16 &&& 0xD208#16 ≠ 0x8000#16) ∧
    Fetches (withWord z0201 0x8008) 0x8008 ∧
    (0x8008#16).getLsbD 3 = true ∧ (0x8200#16).getLsbD 9 = true ∧
    (0x900F#16).extractLsb' 4 12 = 0x900#12 ∧ (0x900F#16).extractLsb' 0 4 ≠ 0b0001#4 ∧
    (0x900F#16).extractLsb' 0 4 ≠ 0b0010#4 ∧ (0x9000#16).extractLsb' 4 12 = 0x900#12 :=
  ⟨by decide, ⟨by decide, rfl⟩, by decide, by decide, by decide, by decide, by decide, by decide⟩

/-- The state in which no register holds a value. -/
def nothing : State := at5 (flat .w16 .ram) .undef .undef []

/-- ChecksAreMadeInTheFixedOrder, FaultsHaveOnlyTheNamedCauses, RefusalsHaveOnlyTheNamedCauses:
each check of rule R62 reached, in the order of the rule (VF5, VF6, VF1, VF2, VF3, VF4, VC10,
VC9). -/
theorem witness_each_check :
    refusalOf (step { z0201 with pc := 32768 }) = some (.fetchOutOfRange 32768) ∧
    refusalOf (step (withWord z0201 0x8008)) = some (.unknownOpcode 0x8008) ∧
    refusalOf (step (withWord { nothing with cfg := { z0201.cfg with forms := [.i] } } 0x91E1)) =
      some (.formNotAvailable .ii) ∧
    faultOf (step (withWord nothing 0x91E1)) = some (.undefinedCombination .ii 30) ∧
    faultOf (step (withWord (at5 (flat .w16 .ram) .undef (.holds 0) []) 0x9001)) =
      some (.unwrittenRead (.reg 30)) ∧
    refusalOf (step (withWord (at5 (flat .w8 .ram) (.holds 0xE0) .undef []) 0xA000)) =
      some (.disp8Carry 0xE0 32) ∧
    refusalOf (step (withWord { z0201 with cfg := { z0201.cfg with dataMap := [] } } 0x9032)) =
      some (.unmappedAddress 0x0200) ∧
    faultOf (step (withWord { z0201 with mem := [] } 0x9032)) =
      some (.unwrittenRead (.mem 0x0200)) := by decide

/-- The pointer bytes in the order of rule R62: r31 after r30 (VA9), RAMPZ last. -/
theorem witness_pointer_lacks :
    PointerLacks nothing (.reg 30) ∧
    PointerLacks (at5 (flat .w16 .ram) (.holds 0x40) .undef []) (.reg 31) ∧
    PointerLacks (at5 (flat .w24 .ram) (.holds 0) (.holds 0) []) .rampz :=
  ⟨.low rfl, .high (lo := 0x40) (by decide) rfl rfl, .ext (lo := 0) (hi := 0) rfl rfl rfl rfl⟩

/-- Locations with no value (VA10, VS5). -/
theorem witness_location_lacks :
    HoldsNoByte nothing 0x0100 (.mem 0x0100) ∧
    HoldsNoByte (at5 classicDevice (.holds 7) (.holds 0) []) 7 (.regVia 7) :=
  ⟨.ram rfl rfl, .reg (i := 7) rfl rfl⟩

/-- UnmappedAddressIsRefused (VA11). -/
theorem witness_unmapped : undefinedCombination (.ldZ 0) = false ∧
    PointerIs { z0201 with cfg := { z0201.cfg with dataMap := [] } } 0x0201 ∧
    displacementCarries .w16 0x0201 (.ldZ 0) = false ∧
    kindAt { z0201.cfg with dataMap := [] } (effectiveAddr .w16 0x0201 (.ldZ 0)) = .unmapped :=
  ⟨by decide, ptrGet_eq_next.1 rfl, by decide, by decide⟩

/-- LoadsIntoThePointerAreDefined: both clauses, destination r31 (VD2's pointer and displacement)
and destination r30. -/
theorem witness_loads_into_pointer : PointerIs z0000 0 ∧
    displacementCarries z0000.cfg.ptrWidth 0 (.lddZ 31 63) = false ∧
    ReadsByte z0000 (effectiveAddr z0000.cfg.ptrWidth 0 (.lddZ 31 63)) 0x55 7 ∧
    PointerIs z0201 0x0201 ∧ ReadsByte z0201 0x0201 0x32 7 :=
  ⟨ptrGet_eq_next.1 rfl, by decide, .ram rfl rfl, witness_pointer_w16, witness_read_ram⟩

/-- LoadsIntoThePointerAreDefined at pointer width 8, where a load into r31 leaves the pointer: both
clauses, form (iiii) at the last address below the refused carry. -/
theorem witness_loads_into_r31_at_w8 : zDF.cfg.ptrWidth = .w8 ∧ PointerIs zDF 0xDF ∧
    displacementCarries zDF.cfg.ptrWidth 0xDF (.lddZ 31 32) = false ∧
    ReadsByte zDF (effectiveAddr zDF.cfg.ptrWidth 0xDF (.lddZ 31 32)) 0x54 7 ∧
    PointerIs (at5 (flat .w8 .ram) (.holds 0xFF) .undef [(0xFF, 0x54)]) 0xFF ∧
    ReadsByte (at5 (flat .w8 .ram) (.holds 0xFF) .undef [(0xFF, 0x54)]) 0xFF 0x54 7 :=
  ⟨rfl, ptrGet_eq_next.1 rfl, by decide, .ram rfl rfl, ptrGet_eq_next.1 rfl, .ram rfl rfl⟩

/-- EightBitPointersIgnoreRegister31: a device of pointer width 8 with SRAM only. -/
theorem witness_w8_without_register_31 : zDF.cfg.ptrWidth = .w8 ∧ (Instr.ldZ 0).dest ≠ 31 ∧
    ∀ a, kindAt zDF.cfg a ≠ .reg 31 := by
  refine ⟨rfl, by decide, fun a => ?_⟩
  show mapAt [⟨0, 2 ^ 8, .ram⟩] a.toNat ≠ _
  unfold mapAt
  split <;> simp [regionKindAt, mapAt]

/-- RampzMattersOnlyAt24Bits. -/
theorem witness_not_w24 : z0201.cfg.ptrWidth ≠ .w24 := by decide

/-- A launch state on the classic layout: Z = 0x0005 and r5 = 0x99 (VS4). -/
def vs4 : State :=
  { at5 classicDevice (.holds 5) (.holds 0) [] with
    regs := (((Vector.replicate 32 ByteCell.undef).set 5 (.holds 0x99)).set 30 (.holds 5)).set 31
      (.holds 0) }

/-- RegisterLocationsFollowThePrintedOrder: r5 from itself (VS4), r30 before the increment (VS2),
and the decremented halves r30 (VS3) and r31. -/
theorem witness_register_locations :
    (PointerIs vs4 5 ∧ kindAt vs4.cfg 5 = .reg 5 ∧ vs4.reg 5 = .holds 0x99) ∧
    (PointerIs (at5 classicDevice (.holds 0x1E) (.holds 0) []) 0x1E ∧
      kindAt classicDevice 0x1E = .reg 30 ∧
      (at5 classicDevice (.holds 0x1E) (.holds 0) []).reg 30 = .holds 0x1E) ∧
    (PointerIs (at5 classicDevice (.holds 0x1F) (.holds 0) []) 0x1F ∧
      (0x1E : Addr).toNat = ((0x1F : Addr).toNat + 2 ^ 16 - 1) % 2 ^ 16) ∧
    PointerIs (at5 classicDevice (.holds 0x20) (.holds 0) []) 0x20 ∧
    (0x1F : Addr).toNat = ((0x20 : Addr).toNat + 2 ^ 16 - 1) % 2 ^ 16 ∧
    kindAt classicDevice 0x1F = .reg 31 :=
  ⟨⟨ptrGet_eq_next.1 rfl, by decide, by decide⟩, ⟨ptrGet_eq_next.1 rfl, by decide, by decide⟩,
    ⟨ptrGet_eq_next.1 rfl, rfl⟩, ptrGet_eq_next.1 rfl, rfl, by decide⟩

/-- RegistersWithValuesStayReadable: the reset state. -/
theorem witness_registers_hold : RegistersHold State.reset := by
  unfold RegistersHold
  decide

/-- IoReadsAreRampzOrThePlatforms: the I/O location of RAMPZ, and the first I/O location. -/
theorem witness_io_reads :
    (regAfter (exec (.ldZ 0) { at5 wide (.holds 0x5B) (.holds 0) [] with rampz := .holds 0 }) 0 =
      some (.holds 0) ∧ kindAt wide 0x5B = .io 0x3B ∧ wide.rampzAddr = some 0x5B) ∧
    regAfter (exec (.ldZ 0) (at5 classicDevice (.holds 0x20) (.holds 0) [])) 0 =
      some (.holds (Config.ioByte 0 7)) ∧ kindAt classicDevice 0x20 = .io 0 :=
  ⟨by decide, rfl, by decide⟩

/-- A device of pointer width 24 whose RAMPZ stands at 0xFFFF, where a carry leaves it and a borrow
reaches it. -/
def rampzHigh : Device :=
  { wide with
    dataMap := [⟨0x0000, 0xFFFF, .ram⟩, ⟨0xFFFF, 1, .io 9⟩, ⟨0x10000, 0xFF0000, .ram⟩]
    rampzAddr := some 0xFFFF }

/-- IoReadsAreRampzOrThePlatforms for the other forms: form (ii) reads RAMPZ before its carry, form
(iii) after its borrow, form (iiii) as it is, and each completes from an I/O location of the
platform too. -/
theorem witness_io_reads_other_forms :
    regAfter (exec (.ldZInc 0) { at5 rampzHigh (.holds 0xFF) (.holds 0xFF) [] with
      rampz := .holds 0 }) 0 = some (.holds 0) ∧
    regAfter (exec (.ldZDec 0) { at5 rampzHigh (.holds 0) (.holds 0) [] with
      rampz := .holds 1 }) 0 = some (.holds 0) ∧
    regAfter (exec (.lddZ 0 1) { at5 rampzHigh (.holds 0xFE) (.holds 0xFF) [] with
      rampz := .holds 0 }) 0 = some (.holds 0) ∧
    regAfter (exec (.ldZInc 0) (at5 classicDevice (.holds 0x5F) (.holds 0) [])) 0 =
      some (.holds (Config.ioByte 0x3F 7)) ∧
    regAfter (exec (.ldZDec 0) (at5 classicDevice (.holds 0x21) (.holds 0) [])) 0 =
      some (.holds (Config.ioByte 0 7)) ∧
    regAfter (exec (.lddZ 0 63) (at5 classicDevice (.holds 0) (.holds 0) [])) 0 =
      some (.holds (Config.ioByte 0x1F 7)) :=
  ⟨by decide, by decide, by decide, rfl, rfl, rfl⟩

/-- IncrementThenDecrementReturns: P6's first and last loads, at the wrap. -/
theorem witness_increment_then_decrement :
    ∃ t u, exec (.ldZInc 5) zFFFF = .next t ∧ exec (.ldZDec 6) t = .next u ∧
      isMemKind (kindAt zFFFF.cfg 0xFFFF) = true :=
  ⟨_, _, rfl, rfl, by decide⟩

/-- RunsKeepTheStateWellFormed, MemoryIsConstantWithoutAgents: a run that starts well formed. -/
theorem witness_run : (Run.launch lastWord).state.wf = true ∧
    lastWord.cfg.otherMasters = .absent ∧ lastWord.cfg.irqModel = .absent := by decide

/-- A device with both agents. -/
def agents : Device :=
  { classicDevice with otherMasters := .platform, irqModel := .platform }

/-- RunsKeepTheStateWellFormed with agents present: a master's write to r0, an interrupt agent that
moves the program counter, and a core step, all of which take effect. -/
theorem witness_run_with_agents :
    { State.reset with cfg := agents }.wf = true ∧
    (((Run.launch (({ State.reset with cfg := agents } : State).placeWord 9 0x8000)).events
        [.masterWrite 0 0x5A,
          .irqAgent { ({ State.reset with cfg := agents } : State).placeWord 9 0x8000 with
            pc := 9, regs := Vector.replicate 32 (.holds 0) },
          .core]).state.pc = 10) ∧
    (((Run.launch { State.reset with cfg := agents }).event (.masterWrite 0 0x5A)).state.reg 0 =
      .holds 0x5A) := by decide

/-- A device of pointer width 24 with RAMPZ in its map and another master. -/
def wideAgents : Device :=
  { wide with otherMasters := .platform }

/-- An AVR8L device with flash in its data space, unmapped addresses, and another master. -/
def flashAgents : Device :=
  { classicDevice with
    core := .avr8l
    forms := [.i, .ii, .iii]
    dataMap := [⟨0x0060, 0x1000, .ram⟩, ⟨0x4000, 0x4000, .flash⟩]
    otherMasters := .platform }

/-- MasterWritesReachTheDataSpace: a register location that is part of the pointer, RAMPZ's, another
I/O location, and an SRAM byte, each on a device with another master. -/
theorem witness_master_writes :
    (Run.launch { State.reset with cfg := agents }).ended = false ∧
    kindAt agents 0x1E = .reg 30 ∧
    PointerIs (dataWrite { State.reset with cfg := agents } 0x1E 0x1E) 0x1E ∧
    deviceOk wideAgents = true ∧ (Run.launch (at5 wideAgents .undef .undef [])).ended = false ∧
    kindAt wideAgents 0x5B = .io 0x3B ∧ isRampzAddr wideAgents 0x5B = true ∧
    PointerIs (dataWrite { at5 wideAgents (.holds 0x5B) (.holds 0) [] with
      rampz := .holds 3 } 0x5B 0) 0x5B ∧
    kindAt agents 0x20 = .io 0 ∧ isRampzAddr agents 0x20 = false ∧
    isMemKind (kindAt agents 0x60) = true ∧
    PointerIs (dataWrite (at5 agents (.holds 0x60) (.holds 0) []) 0x60 0x11) 0x60 :=
  ⟨by decide, by decide, ptrGet_eq_next.1 rfl, by decide, by decide, by decide, by decide,
    ptrGet_eq_next.1 rfl, by decide, by decide, by decide, ptrGet_eq_next.1 rfl⟩

/-- MasterWritesReachTheDataSpace at flash and at unmapped addresses, the boundary ones: the first and
last byte of flash and the addresses beside them. -/
theorem witness_master_writes_without_effect :
    deviceOk flashAgents = true ∧ flashAgents.otherMasters = .platform ∧
    (Run.launch (at5 flashAgents .undef .undef [])).ended = false ∧
    kindAt flashAgents 0x4000 = .flash ∧ kindAt flashAgents 0x7FFF = .flash ∧
    kindAt flashAgents 0x3FFF = .unmapped ∧ kindAt flashAgents 0x8000 = .unmapped := by decide

/-- StopsArePreciseAndPermanent: a run that faults (P5's second instruction) and one that is
refused. -/
theorem witness_stops :
    (Run.launch (withWord z0201 0x91E1)).ended = false ∧
    faultOf (step (withWord z0201 0x91E1)) = some (.undefinedCombination .ii 30) ∧
    (Run.launch (withWord z0201 0x8008)).ended = false ∧
    refusalOf (step (withWord z0201 0x8008)) = some (.unknownOpcode 0x8008) := by decide

/-- RunsEndAtEndPc: a final state. -/
theorem witness_final :
    (⟨{ z0201 with pc := 32767 }, none⟩ : Run).final = true := by decide

/-- LoadsReturnTheLatestMasterWrite. -/
theorem witness_master :
    { z0201.cfg with otherMasters := .platform }.otherMasters = .platform ∧
    isMemKind (kindAt { z0201.cfg with otherMasters := .platform } 0x0201) = true ∧
    (Run.launch { z0201 with cfg := { z0201.cfg with otherMasters := .platform } }).ended =
      false ∧
    PointerIs { z0201 with cfg := { z0201.cfg with otherMasters := .platform } } 0x0201 :=
  ⟨by decide, by decide, by decide, ptrGet_eq_next.1 rfl⟩

/-- FirstLoadFromAnUndefinedResetFaults: `LD r0, Z+` at the reset program counter. -/
theorem witness_undefined_reset :
    Fetches (State.undefReset classicDevice [(0, 0x9001)] 0) 0x9001 ∧
    decode 0x9001#16 = .instr (.ldZInc 0) ∧ hasForm classicDevice .ii = true ∧
    undefinedCombination (.ldZInc 0) = false :=
  ⟨⟨by decide, rfl⟩, by decide, by decide, by decide⟩

/-- AdmittedDevicesMeetTheConstraints: an admitted AVR8L device with flash in its data space, and
an admitted device of pointer width 24. -/
theorem witness_admitted_devices :
    deviceOk { flat .w16 .flash with core := .avr8l, forms := [.i, .ii, .iii] } = true ∧
    kindAt (flat .w16 .flash) 0 = .flash ∧ deviceOk wide = true ∧
    deviceOk (flat .w16 .flash) = false ∧ deviceOk (flat .w8 .ram) = true := by decide

/-- UnadmittedDevicesAreNotInstantiated: one program word past 64K bytes at pointer widths 8 (U16) and
16, and a state that is instantiated, at 64K bytes exactly. -/
theorem witness_instantiation :
    deviceOk { flat .w8 .ram with progWords := 32769 } = false ∧
    deviceOk { flat .w16 .ram with progWords := 32769 } = false ∧
    (2 * (flat .w8 .ram).progWords = 65536 ∧ (Run.instantiate z0201).isSome = true) := by decide

/-- Rule R4 at the edges of its two sizes. -/
theorem test_ptrWidthFor_edges :
    [ptrWidthFor 256 65536, ptrWidthFor 256 65537, ptrWidthFor 257 65536, ptrWidthFor 65536 65536,
      ptrWidthFor 65537 2, ptrWidthFor 257 65537] =
      [some .w8, none, some .w16, some .w16, some .w24, some .w24] := by decide

end Sys2Proof.Tests
end

section
/-! SUPPORT. Rule R27: a data-space read that is refused refuses the whole form, whatever the form
does before it. -/

namespace Sys2Proof.Machine

@[simp] theorem stateAtRead_cfg (s : State) (p : Addr) (i : Instr) :
    (stateAtRead s p i).cfg = s.cfg := by
  cases i <;> simp [stateAtRead]

/-- Once the pointer is read and the displacement accepted, a form is refused for whatever reason its
data-space read is refused: the write of the pointer that form (iii) makes before it is lost. -/
theorem exec_eq_refused_of_dataRead {i : Instr} {s : State} {p : Addr} {r : Refusal}
    (defined : undefinedCombination i = false) (pointer : PointerIs s p)
    (noCarry : displacementCarries s.cfg.ptrWidth p i = false)
    (read : dataRead (stateAtRead s p i) (effectiveAddr s.cfg.ptrWidth p i) = .refused r) :
    exec i s = .refused r := by
  have hp : ptrGet s = .next p := ptrGet_eq_next.2 pointer
  cases i with
  | ldZ d =>
    have hr : dataRead s p = .refused r := read
    simp [exec, execLdZ, hp, hr]
  | ldZInc d =>
    have hr : dataRead s p = .refused r := read
    have hd : isPtrHalf d = false := defined
    simp [exec, execLdZInc, hd, hp, hr]
  | ldZDec d =>
    have hr : dataRead (ptrSet s (ptrDec s.cfg.ptrWidth p)) (ptrDec s.cfg.ptrWidth p)
        = .refused r := by rw [ptrDec_eq]; exact read
    have hd : isPtrHalf d = false := defined
    simp [exec, execLdZDec, hd, hp, hr]
  | lddZ d q =>
    have he : dispAddr s.cfg.ptrWidth p q
        = .next (effectiveAddr s.cfg.ptrWidth p (.lddZ d q)) :=
      (dispAddr_eq_next pointer).2 ⟨of_decide_eq_false noCarry, rfl⟩
    have hr : dataRead s (effectiveAddr s.cfg.ptrWidth p (.lddZ d q)) = .refused r := read
    simp [exec, execLddZ, hp, he, hr]

/-- Settles O23: the read at an unmapped address is refused, by the kind of the location alone, and a
refused read refuses the form; a refusal is recorded beside the state before. -/
theorem unmappedAddressIsRefused : Obligations.UnmappedAddressIsRefused := by
  intro i s p defined pointer noCarry unmapped
  have refused : exec i s = .refused (.unmappedAddress (effectiveAddr s.cfg.ptrWidth p i)) :=
    exec_eq_refused_of_dataRead defined pointer noCarry
      (dataRead_eq_refused.2 ⟨by rw [stateAtRead_cfg]; exact unmapped, rfl⟩)
  exact ⟨refused, by rw [refused]; rfl⟩

end Sys2Proof.Machine
end

section
/-! SUPPORT. The fields of an instruction word: a word is its row's fixed bits and its operand
fields, and each field reads back what the encoder places (rules R38 to R42). -/

namespace Sys2Proof

open Sys2Proof.Laws Sys2Proof.Machine

/-! ## Bits under a mask -/

/-- Two masks that together cover a word split it. -/
theorem and_or_and_of_cover {m n : IWord} (cover : m ||| n = BitVec.allOnes 16) (w : IWord) :
    w &&& m ||| w &&& n = w := by
  rw [← BitVec.and_or_distrib_left, cover, BitVec.and_allOnes]

/-- A part of the word that lies under the mask is that part of the pattern. -/
theorem extractLsb'_of_and_eq {w m p : IWord} (h : w &&& m = p) (start len : Nat)
    (under : m.extractLsb' start len = BitVec.allOnes len) :
    w.extractLsb' start len = p.extractLsb' start len := by
  rw [← h, BitVec.extractLsb'_and, under, BitVec.and_allOnes]

theorem OpRow.fits_iff {r : OpRow} {w : IWord} : r.fits w = true ↔ w &&& r.mask = r.pattern :=
  decide_eq_true_iff

theorem OpRow.fits_eq_false_iff {r : OpRow} {w : IWord} :
    r.fits w = false ↔ w &&& r.mask ≠ r.pattern :=
  decide_eq_false_iff_not

/-- One fixed bit that differs rules a row out. -/
theorem OpRow.fits_eq_false_of_bit {r : OpRow} {w : IWord} {k : Nat}
    (fixed : r.mask.getLsbD k = true) (differs : w.getLsbD k ≠ r.pattern.getLsbD k) :
    r.fits w = false := by
  refine fits_eq_false_iff.2 fun h => differs ?_
  rw [← h, BitVec.getLsbD_and, fixed, Bool.and_true]

/-! ## The operand fields -/

/-- Field `d` as a bit vector of any width. -/
theorem ofNat_fieldD (n : Nat) (w : IWord) :
    BitVec.ofNat n (fieldD w).val = (w.extractLsb' 4 5).setWidth n :=
  BitVec.ofNat_toNat n _

/-- A part of field `d` is that part of the word, four bits up. -/
theorem extractLsb'_fieldD (w : IWord) (start len : Nat) (inside : start + len ≤ 5) :
    (BitVec.ofNat 5 (fieldD w).val).extractLsb' start len = w.extractLsb' (4 + start) len := by
  rw [ofNat_fieldD, BitVec.setWidth_eq]
  ext j hj
  have : start + j < 5 := by omega
  simp [this, Nat.add_assoc]

theorem fieldQ_bit5 (w : IWord) : (fieldQ w).extractLsb' 5 1 = w.extractLsb' 13 1 := by
  rw [fieldQ, BitVec.append_assoc, BitVec.cast_eq]
  exact BitVec.extractLsb'_append_eq_left

theorem fieldQ_bits4_3 (w : IWord) : (fieldQ w).extractLsb' 3 2 = w.extractLsb' 10 2 := by
  rw [fieldQ, BitVec.extractLsb'_append_eq_of_le (by decide)]
  exact BitVec.extractLsb'_append_eq_right

theorem fieldQ_bits2_0 (w : IWord) : (fieldQ w).extractLsb' 0 3 = w.extractLsb' 0 3 :=
  BitVec.extractLsb'_append_eq_right

/-- Bits 8 to 4 of a word are its field `d`, put back in place. -/
theorem placeD_fieldD (w : IWord) : placeD (fieldD w) = w &&& 0x01F0#16 := by
  rw [placeD, ofNat_fieldD]
  ext j hj
  interval_cases j <;> simp

/-- Bits 13, 11:10 and 2:0 of a word are its field `q`, put back in place. -/
theorem placeQ_fieldQ (w : IWord) : placeQ (fieldQ w) = w &&& 0x2C07#16 := by
  rw [placeQ, fieldQ_bit5, fieldQ_bits4_3, fieldQ_bits2_0]
  ext j hj
  interval_cases j <;> simp

theorem fieldD_or (a b : IWord) : fieldD (a ||| b) = fieldD a ||| fieldD b := by
  simp only [fieldD, BitVec.extractLsb'_or, BitVec.toFin_or]

theorem fieldQ_or (a b : IWord) : fieldQ (a ||| b) = fieldQ a ||| fieldQ b := by
  simp only [fieldQ, BitVec.extractLsb'_or]
  rw [← BitVec.or_append (w := 1) (v := 2), ← BitVec.or_append (w := 3) (v := 3)]

theorem fieldD_placeD (d : RegIdx) : fieldD (placeD d) = d := by revert d; decide

theorem fieldQ_placeD (d : RegIdx) : fieldQ (placeD d) = 0 := by revert d; decide

theorem fieldD_placeQ (q : BitVec 6) : fieldD (placeQ q) = 0 := by revert q; decide

theorem fieldQ_placeQ (q : BitVec 6) : fieldQ (placeQ q) = q := by revert q; decide

/-- Placing `d` in a word whose field `d` is clear makes `d` its field. -/
theorem fieldD_or_placeD {p : IWord} (clear : fieldD p = 0) (d : RegIdx) :
    fieldD (p ||| placeD d) = d := by
  rw [fieldD_or, clear, fieldD_placeD]
  revert d; decide

/-- Field `d` of an instruction's word is its destination. -/
theorem fieldD_encode (i : Instr) : fieldD (encode i) = i.dest := by
  cases i with
  | ldZ d => exact fieldD_or_placeD rfl d
  | ldZInc d => exact fieldD_or_placeD rfl d
  | ldZDec d => exact fieldD_or_placeD rfl d
  | lddZ d q => exact fieldD_or_placeD (by rw [fieldD_or, fieldD_placeQ]; rfl) d

/-- Field `q` of a displacement word is its displacement. -/
theorem fieldQ_encode_lddZ (d : RegIdx) (q : BitVec 6) : fieldQ (encode (.lddZ d q)) = q := by
  have fixed : fieldQ 0x8000#16 = 0 := rfl
  rw [encode, fieldQ_or, fieldQ_or, fixed, fieldQ_placeQ, fieldQ_placeD]
  simp

/-! ## Words and rows -/

/-- Every instruction's word fits the row of its form. -/
theorem encode_and_mask (i : Instr) : encode i &&& i.form.row.mask = i.form.row.pattern := by
  apply OpRow.fits_iff.1
  cases i with
  | ldZ d => exact EncodingFitsRow.ldZ d
  | ldZInc d => exact EncodingFitsRow.ldZInc d
  | ldZDec d => exact EncodingFitsRow.ldZDec d
  | lddZ d q => exact EncodingFitsRow.lddZ d q

/-- A word under the mask of forms (i) to (iii) is its pattern and its field `d`. -/
theorem eq_or_placeD_of_and_ldMask {w p : IWord} (h : w &&& 0xFE0F#16 = p) :
    w = p ||| placeD (fieldD w) :=
  calc w = w &&& 0xFE0F#16 ||| w &&& 0x01F0#16 := (and_or_and_of_cover rfl w).symm
    _ = p ||| placeD (fieldD w) := by rw [h, placeD_fieldD]

/-- A word under the mask of form (iiii) is its pattern and its two fields. -/
theorem eq_encode_lddZ_of_and_lddMask {w : IWord} (h : w &&& 0xD208#16 = 0x8000#16) :
    w = encode (.lddZ (fieldD w) (fieldQ w)) :=
  calc w = w &&& 0xFE0F#16 ||| w &&& 0x01F0#16 := (and_or_and_of_cover rfl w).symm
    _ = w &&& (0xD208#16 ||| 0x2C07#16) ||| w &&& 0x01F0#16 := rfl
    _ = encode (.lddZ (fieldD w) (fieldQ w)) := by
      rw [BitVec.and_or_distrib_left, h, ← placeQ_fieldQ, ← placeD_fieldD, encode]

/-- The table of forms (i) to (iii), read off a word. -/
theorem printedLd_of_and_ldMask {w p : IWord} (h : w &&& 0xFE0F#16 = p) :
    PrintedLd (p.extractLsb' 9 7) (p.extractLsb' 0 4) (fieldD w) w :=
  ⟨extractLsb'_of_and_eq h 9 7 rfl, (extractLsb'_fieldD w 4 1 (by decide)).symm,
    (extractLsb'_fieldD w 0 4 (by decide)).symm, extractLsb'_of_and_eq h 0 4 rfl⟩

/-- The table of form (iiii), read off a word. -/
theorem printedLdd_of_and_lddMask {w : IWord} (h : w &&& 0xD208#16 = 0x8000#16) :
    PrintedLdd (fieldD w) (fieldQ w) w := by
  have fixed := extractLsb'_of_and_eq h
  exact ⟨fixed 14 2 rfl, (fieldQ_bit5 w).symm, fixed 12 1 rfl, (fieldQ_bits4_3 w).symm,
    fixed 9 1 rfl, (extractLsb'_fieldD w 4 1 (by decide)).symm,
    (extractLsb'_fieldD w 0 4 (by decide)).symm, fixed 3 1 rfl, (fieldQ_bits2_0 w).symm⟩

/-- The layout of an instruction's word, for the forms of the shared mask. -/
theorem printedLd_encode {i : Instr} {p : IWord} {hi : BitVec 7} {lo : BitVec 4}
    (row : i.form.row = ⟨0xFE0F#16, p⟩) (high : p.extractLsb' 9 7 = hi)
    (low : p.extractLsb' 0 4 = lo) : PrintedLd hi lo i.dest (encode i) := by
  have fixed := encode_and_mask i
  rw [row] at fixed
  rw [← high, ← low, ← fieldD_encode i]
  exact printedLd_of_and_ldMask fixed

/-- A form of the shared mask whose encoder places `d` in the pattern has all the words that match
the pattern. -/
theorem and_ldMask_eq_iff {form : RegIdx → Instr} {p w : IWord}
    (fixed : ∀ d, encode (form d) &&& 0xFE0F#16 = p)
    (value : ∀ d, encode (form d) = p ||| placeD d) :
    w &&& 0xFE0F#16 = p ↔ ∃ d, w = encode (form d) := by
  constructor
  · exact fun h => ⟨fieldD w, (eq_or_placeD_of_and_ldMask h).trans (value _).symm⟩
  · rintro ⟨d, rfl⟩
    exact fixed d

/-- Settles O2: the layout by the fixed bits and the field of the word, the value as the encoder
places it, and the converse of the mask by reading field `d` off the word. -/
theorem ldFormsHaveTheirPrintedLayout : Obligations.LdFormsHaveTheirPrintedLayout := by
  refine ⟨fun d => ⟨?_, rfl, ?_, rfl, ?_, rfl⟩, fun w => ⟨?_, ?_, ?_⟩⟩
  · exact printedLd_encode (i := .ldZ d) rfl rfl rfl
  · exact printedLd_encode (i := .ldZInc d) rfl rfl rfl
  · exact printedLd_encode (i := .ldZDec d) rfl rfl rfl
  · exact and_ldMask_eq_iff (fun d => encode_and_mask (.ldZ d)) fun _ => rfl
  · exact and_ldMask_eq_iff (fun d => encode_and_mask (.ldZInc d)) fun _ => rfl
  · exact and_ldMask_eq_iff (fun d => encode_and_mask (.ldZDec d)) fun _ => rfl

/-- Settles O3: as for the other forms, with the displacement's three groups of bits beside `d`. -/
theorem lddFormHasItsPrintedLayout : Obligations.LddFormHasItsPrintedLayout := by
  refine ⟨fun d q => ⟨?layout, ?value⟩, fun w => ⟨fun h => ?_, ?_⟩⟩
  case layout =>
    have h := printedLdd_of_and_lddMask (encode_and_mask (.lddZ d q))
    rwa [fieldD_encode, fieldQ_encode_lddZ] at h
  case value =>
    rw [encode, placeQ, placeD]
    ac_rfl
  · exact ⟨_, _, eq_encode_lddZ_of_and_lddMask h⟩
  · rintro ⟨d, q, rfl⟩; exact encode_and_mask (.lddZ d q)

/-! ## The decoder -/

/-- A word that fits no row is unknown (rule R44). -/
theorem decode_eq_unknown {w : IWord} (noRow : ∀ f : Form, f.row.fits w = false) :
    decode w = .unknown w := by
  simp [decode, noRow]

/-- A set bit that every row fixes at 0 makes the word unknown (rule R44). -/
theorem decode_eq_unknown_of_bit {w : IWord} (k : Nat) (bit : w.getLsbD k = true)
    (fixed : ∀ f : Form, f.row.mask.getLsbD k = true ∧ f.row.pattern.getLsbD k = false) :
    decode w = .unknown w := by
  refine decode_eq_unknown fun f => OpRow.fits_eq_false_of_bit (fixed f).1 ?_
  rw [bit, (fixed f).2]
  exact Bool.noConfusion

/-- What the decoder has found when it answers the displacement form: the word is not of form (i),
and the operands are its fields (rule R43). -/
theorem decode_eq_lddZ {w : IWord} {d : RegIdx} {q : BitVec 6}
    (h : decode w = .instr (.lddZ d q)) :
    w &&& 0xFE0F#16 ≠ 0x8000#16 ∧ w &&& 0xD208#16 = 0x8000#16 ∧ fieldD w = d ∧ fieldQ w = q := by
  unfold decode at h
  split_ifs at h with i ii iii iiii <;> cases h
  exact ⟨fun e => i (OpRow.fits_iff.2 e), OpRow.fits_iff.1 iiii, rfl, rfl⟩

/-- No word decodes to displacement 0: under the mask of form (iiii) it would be a word of form (i),
which the decoder tries first. -/
theorem displacement_ne_zero_of_decode {w : IWord} {d : RegIdx} {q : BitVec 6}
    (h : decode w = .instr (.lddZ d q)) : q ≠ 0 := by
  rintro rfl
  obtain ⟨not_i, fits, -, hq⟩ := decode_eq_lddZ h
  apply not_i
  calc w &&& 0xFE0F#16 = w &&& (0xD208#16 ||| 0x2C07#16) := rfl
    _ = 0x8000#16 ||| placeQ (fieldQ w) := by rw [BitVec.and_or_distrib_left, fits, placeQ_fieldQ]
    _ = 0x8000#16 := by rw [hq]; rfl

end Sys2Proof
end

section
/-! SUPPORT. How the first three checks of a step end it (rules R44, R45, R62), over the word that is
fetched. -/

namespace Sys2Proof.Machine

/-- Inside program memory a step decodes the word it fetched, checks the form and runs it. -/
theorem step_of_fetches {s : State} {w : IWord} (h : Fetches s w) :
    step s = andThen (andThen (decodeWord w) fun i => checkForm s.cfg i) fun i => exec i s := by
  obtain ⟨inside, word⟩ := h
  have fetched : fetchWord s = .next w := by rw [fetchWord, if_neg (Nat.not_le.2 inside), word]
  rw [step, fetchInstr, fetched, andThen_next]

/-- An unknown word refuses the step (rule R44). -/
theorem step_of_unknown {s : State} {w u : IWord} (fetches : Fetches s w)
    (unknown : decode w = .unknown u) : step s = .refused (.unknownOpcode u) := by
  have refused : decodeWord w = .refused (.unknownOpcode u) := by rw [decodeWord, unknown]
  rw [step_of_fetches fetches, refused, andThen_refused, andThen_refused]

/-- A form the device lacks refuses the step (rule R45). -/
theorem step_of_lacking_form {s : State} {w : IWord} {i : Instr} (fetches : Fetches s w)
    (decoded : decode w = .instr i) (lacking : hasForm s.cfg i.form = false) :
    step s = .refused (.formNotAvailable i.form) := by
  have instr : decodeWord w = .next i := by rw [decodeWord, decoded]
  have refused : checkForm s.cfg i = .refused (.formNotAvailable i.form) := by
    simp [checkForm, lacking]
  rw [step_of_fetches fetches, instr, andThen_next, refused, andThen_refused]

theorem hasForm_eq_false_iff {c : Device} {f : Form} :
    hasForm c f = false ↔ f ∉ c.forms ∨ (c.core = .avr8l ∧ f = .iiii) := by
  simp [hasForm, imp_iff_not_or]

/-- Settles O5: each row is ruled out by a fixed bit that differs (bits 3 and 9 are 0 in every row,
bit 12 in those of forms (i) and (iiii)) or by its low four bits. -/
theorem wordsOfNoPatternAreRefused : Obligations.WordsOfNoPatternAreRefused := by
  refine ⟨fun w h => ?_, fun w h => ?_, fun w high not_ii not_iii => ?_⟩
  · obtain ⟨not_i, not_ii, not_iii, not_iiii⟩ := h
    have unknown : decode w = .unknown w := decode_eq_unknown fun f => by
      apply OpRow.fits_eq_false_iff.2
      cases f with
      | i => exact not_i
      | ii => exact not_ii
      | iii => exact not_iii
      | iiii => exact not_iiii
    exact ⟨unknown, fun s fetches => step_of_unknown fetches unknown⟩
  · rcases h with bit | bit
    · exact decode_eq_unknown_of_bit 3 bit fun f => by cases f <;> exact ⟨rfl, rfl⟩
    · exact decode_eq_unknown_of_bit 9 bit fun f => by cases f <;> exact ⟨rfl, rfl⟩
  · have bit12 : w.getLsbD 12 = true := by
      have h : (w.extractLsb' 4 12).getLsbD 8 = true := by rw [high]; rfl
      simpa using h
    apply decode_eq_unknown
    intro f
    cases f with
    | i => exact OpRow.fits_eq_false_of_bit (k := 12) rfl (by rw [bit12]; decide)
    | ii => exact OpRow.fits_eq_false_iff.2 fun h => not_ii (extractLsb'_of_and_eq h 0 4 rfl)
    | iii => exact OpRow.fits_eq_false_iff.2 fun h => not_iii (extractLsb'_of_and_eq h 0 4 rfl)
    | iiii => exact OpRow.fits_eq_false_of_bit (k := 12) rfl (by rw [bit12]; decide)

/-- Settles O9: both clauses are ways of lacking a form; a displacement of 0 is never decoded. -/
theorem unavailableFormsAreRefused : Obligations.UnavailableFormsAreRefused := by
  intro s w i fetches decoded
  refine ⟨fun absent => ?_, fun avr8l d q hi => ?_⟩
  · exact step_of_lacking_form fetches decoded (hasForm_eq_false_iff.2 (.inl absent))
  · subst hi
    exact ⟨displacement_ne_zero_of_decode decoded,
      step_of_lacking_form fetches decoded (hasForm_eq_false_iff.2 (.inr ⟨avr8l, rfl⟩))⟩

end Sys2Proof.Machine
end

section
/-! SUPPORT. What every form keeps to, whatever it loads: the program counter's one advance (rule
R57), no part of SREG read or written (rule R55), and the fault of the undefined combinations (rule
R54). -/

namespace Sys2Proof.Machine

/-! ## The undefined combinations -/

/-- Form (ii) faults on either half of the pointer before it reads anything. -/
theorem exec_ldZInc_undefined {d : RegIdx} (half : d = 30 ∨ d = 31) (s : State) :
    exec (.ldZInc d) s = .fault (.undefinedCombination .ii d) :=
  if_pos (decide_eq_true half)

/-- Form (iii) faults on either half of the pointer before it reads anything. -/
theorem exec_ldZDec_undefined {d : RegIdx} (half : d = 30 ∨ d = 31) (s : State) :
    exec (.ldZDec d) s = .fault (.undefinedCombination .iii d) :=
  if_pos (decide_eq_true half)

/-- Settles O20: the four words decode by evaluation, and the test on `d` comes before every read; a
fault is recorded beside the state before. -/
theorem undefinedCombinationsFault : Obligations.UndefinedCombinationsFault := by
  refine ⟨⟨by decide, by decide, by decide, by decide⟩, fun s d half => ?_⟩
  have inc := exec_ldZInc_undefined half s
  have dec := exec_ldZDec_undefined half s
  exact ⟨inc, dec, by rw [inc]; rfl, by rw [dec]; rfl⟩

/-! ## The program counter -/

/-- A form that completes advances the program counter as its last act: its reads and writes before
that leave both the counter and its width alone (rule R57). -/
theorem exec_pc {i : Instr} {s t : State} (h : exec i s = .next t) :
    t.pc = (s.pc + 1) % 2 ^ s.cfg.pcBits := by
  cases i with
  | ldZ d =>
    obtain ⟨p, b, ds, -, -, rfl⟩ := execLdZ_eq_next.1 h
    simp
  | ldZInc d =>
    obtain ⟨-, p, b, ds, -, -, rfl⟩ := execLdZInc_eq_next.1 h
    simp
  | ldZDec d =>
    obtain ⟨-, p, b, ds, -, -, rfl⟩ := execLdZDec_eq_next.1 h
    simp
  | lddZ d q =>
    obtain ⟨p, ea, b, ds, -, -, -, rfl⟩ := execLddZ_eq_next.1 h
    simp

/-- Settles O13: a step that completes runs one form to its end. -/
theorem completedStepAdvancesPcByOne : Obligations.CompletedStepAdvancesPcByOne := by
  intro s t h
  obtain ⟨i, -, completes⟩ := step_eq_next.1 h
  exact exec_pc completes

/-! ## SREG -/

/-- The state with the cell SREG replaced, a value or `undef`. -/
def State.withSreg (s : State) (c : ByteCell) : State :=
  { s with sreg := c }

@[simp] theorem State.withSreg_cfg (s : State) (c : ByteCell) : (s.withSreg c).cfg = s.cfg := rfl

@[simp] theorem State.withSreg_rampz (s : State) (c : ByteCell) :
    (s.withSreg c).rampz = s.rampz := rfl

@[simp] theorem State.withSreg_devState (s : State) (c : ByteCell) :
    (s.withSreg c).devState = s.devState := rfl

@[simp] theorem State.reg_withSreg (s : State) (c : ByteCell) (j : RegIdx) :
    (s.withSreg c).reg j = s.reg j := rfl

@[simp] theorem State.setDevState_withSreg (s : State) (c : ByteCell) (ds : DevState) :
    (s.withSreg c).setDevState ds = (s.setDevState ds).withSreg c := rfl

@[simp] theorem State.setReg_withSreg (s : State) (c : ByteCell) (i : RegIdx) (v : Byte) :
    (s.withSreg c).setReg i v = (s.setReg i v).withSreg c := rfl

@[simp] theorem State.setRampz_withSreg (s : State) (c : ByteCell) (v : Byte) :
    (s.withSreg c).setRampz v = (s.setRampz v).withSreg c := rfl

@[simp] theorem State.advancePc_withSreg (s : State) (c : ByteCell) :
    (s.withSreg c).advancePc = s.advancePc.withSreg c := rfl

theorem State.flag_congr {s t : State} (h : t.sreg = s.sreg) (f : Flag) : t.flag f = s.flag f := by
  simp [State.flag, h]

/-- The memory is read without SREG. -/
@[simp] theorem readMem_withSreg (s : State) (c : ByteCell) (a : Addr) :
    readMem (s.withSreg c) a = readMem s a := rfl

/-- The pointer is read without SREG. -/
@[simp] theorem ptrGet_withSreg (s : State) (c : ByteCell) : ptrGet (s.withSreg c) = ptrGet s := rfl

/-- The pointer is written beside SREG. -/
@[simp] theorem ptrSet_withSreg (s : State) (c : ByteCell) (v : Addr) :
    ptrSet (s.withSreg c) v = (ptrSet s v).withSreg c := by
  cases width : s.cfg.ptrWidth <;> simp [ptrSet, width]

theorem andThen_quietly {α : Type} (s : State) (o : Host.Outcome Byte Fault Refusal)
    (k : Loaded → Host.Outcome α Fault Refusal) :
    andThen (quietly s o) k = andThen o fun b => k ⟨b, s⟩ := by
  cases o <;> rfl

/-- A data-space read answers the same without SREG, and what follows it gets the same byte and the
same state but for SREG. -/
@[simp] theorem andThen_dataRead_withSreg {α : Type} (s : State) (c : ByteCell) (a : Addr)
    (k : Loaded → Host.Outcome α Fault Refusal) :
    andThen (dataRead (s.withSreg c) a) k =
      andThen (dataRead s a) fun r => k ⟨r.byte, r.after.withSreg c⟩ := by
  cases kind : kindAt s.cfg a with
  | reg i => simp [dataRead, kind, andThen_quietly]
  | io n =>
    by_cases rampz : isRampzAddr s.cfg a = true <;>
      simp [dataRead, kind, readIo, rampz, andThen_quietly]
  | ram => simp [dataRead, kind, andThen_quietly]
  | extRam => simp [dataRead, kind, andThen_quietly]
  | flash => simp [dataRead, kind]
  | unmapped => simp [dataRead, kind]

@[simp] theorem mapNext_next (f : State → State) (t : State) :
    mapNext f (.next t) = .next (f t) := rfl

@[simp] theorem mapNext_fault (f : State → State) (r : Fault) :
    mapNext f (.fault r) = .fault r := rfl

/-- A change of the next state may be made after the last of a chain of operations. -/
@[simp] theorem mapNext_andThen {α : Type} (f : State → State) (o : Host.Outcome α Fault Refusal)
    (g : α → Host.Outcome State Fault Refusal) :
    mapNext f (andThen o g) = andThen o fun a => mapNext f (g a) := by
  cases o <;> rfl

/-- Every form carries SREG through and is otherwise blind to it (rule R55). -/
theorem exec_withSreg (i : Instr) (s : State) (c : ByteCell) :
    exec i (s.withSreg c) = mapNext (fun t => t.withSreg c) (exec i s) := by
  cases i with
  | ldZ d => simp [exec, execLdZ]
  | ldZInc d =>
    by_cases half : d = 30 ∨ d = 31
    · simp [exec_ldZInc_undefined half]
    · simp [exec, execLdZInc, isPtrHalf_eq, half]
  | ldZDec d =>
    by_cases half : d = 30 ∨ d = 31
    · simp [exec_ldZDec_undefined half]
    · simp [exec, execLdZDec, isPtrHalf_eq, half]
  | lddZ d q => simp [exec, execLddZ]

/-- No form writes SREG: putting the old SREG into the state changes nothing, so by the independence
from SREG putting it into the next state changes nothing either. -/
theorem exec_sreg {i : Instr} {s t : State} (h : exec i s = .next t) : t.sreg = s.sreg := by
  have same : exec i s = mapNext (fun t => t.withSreg s.sreg) (exec i s) :=
    exec_withSreg i s s.sreg
  rw [h] at same
  have ht : t = t.withSreg s.sreg := Host.Outcome.next.inj same
  calc t.sreg = (t.withSreg s.sreg).sreg := congrArg State.sreg ht
    _ = s.sreg := rfl

/-- Settles O24: the outcome is independent of SREG, so SREG is kept, and a flag is read from SREG
alone. -/
theorem flagsAreNeitherReadNorWritten : Obligations.FlagsAreNeitherReadNorWritten := by
  intro i s
  refine ⟨exec_withSreg i s, fun t h => ?_⟩
  have kept := exec_sreg h
  exact ⟨kept, State.flag_congr kept⟩

end Sys2Proof.Machine
end

section
/-! SUPPORT. The checks a step makes after the fetch, one lemma per check in the order of rule R62:
the form's own check, the pointer, the displacement, the location. -/

namespace Sys2Proof.Machine

/-- Past the first three checks a step is the meaning of the instruction it decoded (rule R49). -/
theorem step_of_hasForm {s : State} {w : IWord} {i : Instr} (fetches : Fetches s w)
    (decoded : decode w = .instr i) (available : hasForm s.cfg i.form = true) :
    step s = exec i s := by
  rw [step, fetchInstr_eq_next.2 ⟨w, fetches, decoded, available⟩, andThen_next]

/-- An undefined combination faults, whatever the pointer and the memory hold (rule R54). -/
theorem exec_of_undefinedCombination {i : Instr} (undefined : undefinedCombination i = true)
    (s : State) : exec i s = .fault (.undefinedCombination i.form i.dest) := by
  cases i with
  | ldZ d => cases undefined
  | ldZInc d => exact exec_ldZInc_undefined (of_decide_eq_true undefined) s
  | ldZDec d => exact exec_ldZDec_undefined (of_decide_eq_true undefined) s
  | lddZ d q => cases undefined

/-- The first thing a defined combination does is read the pointer. -/
theorem exec_eq_andThen_ptrGet {i : Instr} (defined : undefinedCombination i = false) (s : State) :
    ∃ k, exec i s = andThen (ptrGet s) k := by
  cases i with
  | ldZ d => exact ⟨_, rfl⟩
  | ldZInc d => exact ⟨_, if_neg (of_decide_eq_false defined ∘ of_decide_eq_true)⟩
  | ldZDec d => exact ⟨_, if_neg (of_decide_eq_false defined ∘ of_decide_eq_true)⟩
  | lddZ d q => exact ⟨_, rfl⟩

/-- A pointer byte that holds no value faults every defined combination (rule R20). -/
theorem exec_of_pointerLacks {i : Instr} {s : State} {l : Location}
    (defined : undefinedCombination i = false) (lacks : PointerLacks s l) :
    exec i s = .fault (.unwrittenRead l) := by
  obtain ⟨k, reads⟩ := exec_eq_andThen_ptrGet defined s
  rw [reads, ptrGet_eq_fault.2 ⟨l, lacks, rfl⟩, andThen_fault]

/-- At pointer width 8 the pointer is register 30 alone (rule R15). -/
theorem pointerIs_w8_iff {s : State} {p : Addr} (width : s.cfg.ptrWidth = .w8) :
    PointerIs s p ↔ ∃ lo : Byte, s.reg 30 = .holds lo ∧ p.toNat = lo.toNat := by
  simp only [PointerIs, width]

/-- A displacement that carries out of an 8-bit pointer is refused, the pointer byte named (rule
R22). -/
theorem exec_lddZ_of_carry {s : State} {d : RegIdx} {q : BitVec 6} {x : Byte}
    (width : s.cfg.ptrWidth = .w8) (low : s.reg 30 = .holds x)
    (carry : 256 ≤ x.toNat + q.toNat) : exec (.lddZ d q) s = .refused (.disp8Carry x q) := by
  have value : (x.setWidth 24).toNat = x.toNat :=
    BitVec.toNat_setWidth_of_le (by decide)
  have pointer : PointerIs s (x.setWidth 24) := (pointerIs_w8_iff width).2 ⟨x, low, value⟩
  have refused : dispAddr s.cfg.ptrWidth (x.setWidth 24) q = .refused (.disp8Carry x q) := by
    rw [dispAddr_eq _ _ _ pointer.lt, if_pos ⟨width, by rwa [value]⟩,
      BitVec.setWidth_setWidth_of_le x (by decide), BitVec.setWidth_eq]
  rw [exec, execLddZ, ptrGet_eq_next.2 pointer, andThen_next, refused, andThen_refused]

/-- With its pointer read and its displacement accepted, the next thing a form can stop at is the
read of its effective address: form (iii) writes the pointer before it, which cannot fail. -/
theorem exec_eq_andThen_dataRead {i : Instr} {s : State} {p : Addr}
    (defined : undefinedCombination i = false) (pointer : PointerIs s p)
    (noCarry : displacementCarries s.cfg.ptrWidth p i = false) :
    ∃ k, exec i s =
      andThen (dataRead (stateAtRead s p i) (effectiveAddr s.cfg.ptrWidth p i)) k := by
  have hp : ptrGet s = .next p := ptrGet_eq_next.2 pointer
  cases i with
  | ldZ d => exact ⟨_, by rw [exec, execLdZ, hp, andThen_next]; rfl⟩
  | ldZInc d =>
    have hd : isPtrHalf d = false := defined
    exact ⟨_, by rw [exec, execLdZInc, hd, hp, andThen_next]; rfl⟩
  | ldZDec d =>
    have hd : isPtrHalf d = false := defined
    exact ⟨_, by rw [exec, execLdZDec, hd, hp, andThen_next, ptrDec_eq]; rfl⟩
  | lddZ d q =>
    have accepted : dispAddr s.cfg.ptrWidth p q
        = .next (effectiveAddr s.cfg.ptrWidth p (.lddZ d q)) :=
      (dispAddr_eq_next pointer).2 ⟨of_decide_eq_false noCarry, rfl⟩
    exact ⟨_, by rw [exec, execLddZ, hp, andThen_next, accepted, andThen_next]; rfl⟩

/-- A location that holds no value faults the form that reads it (rule R20). -/
theorem exec_of_holdsNoByte {i : Instr} {s : State} {p : Addr} {l : Location}
    (defined : undefinedCombination i = false) (pointer : PointerIs s p)
    (noCarry : displacementCarries s.cfg.ptrWidth p i = false)
    (empty : HoldsNoByte (stateAtRead s p i) (effectiveAddr s.cfg.ptrWidth p i) l) :
    exec i s = .fault (.unwrittenRead l) := by
  obtain ⟨k, reads⟩ := exec_eq_andThen_dataRead defined pointer noCarry
  rw [reads, dataRead_eq_fault.2 ⟨l, empty, rfl⟩, andThen_fault]

/-- A program counter beyond program memory refuses the step (rules R12, R49). -/
theorem step_of_fetchOutOfRange {s : State} (beyond : s.cfg.progWords ≤ s.pc) :
    step s = .refused (.fetchOutOfRange s.pc) := by
  rw [step, fetchInstr, fetchWord, if_pos beyond, andThen_refused, andThen_refused]

/-- Settles O10: each check ends the step where the ones before it let it pass. -/
theorem checksAreMadeInTheFixedOrder : Obligations.ChecksAreMadeInTheFixedOrder := by
  intro s
  refine ⟨step_of_fetchOutOfRange, fun w fetches => ⟨step_of_unknown fetches, fun i decoded =>
    ⟨step_of_lacking_form fetches decoded, fun available => ?_⟩⟩⟩
  rw [step_of_hasForm fetches decoded available]
  refine ⟨fun undefined => exec_of_undefinedCombination undefined s, fun defined =>
    ⟨fun l lacks => exec_of_pointerLacks defined lacks, fun p pointer => ⟨?carry, fun noCarry =>
      ⟨fun unmapped => ?unmapped, fun l empty =>
        exec_of_holdsNoByte defined pointer noCarry empty⟩⟩⟩⟩
  case carry =>
    rintro d q x rfl width low carry
    exact exec_lddZ_of_carry width low carry
  case unmapped =>
    exact (unmappedAddressIsRefused i s p defined pointer noCarry unmapped).1

end Sys2Proof.Machine
end

section
/-! SUPPORT. The end of a run: what a core step records, and that nothing happens once an outcome is
recorded (rules R63, R64). -/

namespace Sys2Proof.Machine

/-- No event changes a run that has ended. -/
theorem Run.event_of_ended {r : Run} (ended : r.ended = true) (e : Event) : r.event e = r := by
  cases e with
  | core => exact if_pos ended
  | masterWrite a v => exact if_pos ended
  | irqAgent after => exact if_pos ended

/-- No list of events changes a run that has ended. -/
theorem Run.events_of_ended {r : Run} (ended : r.ended = true) (es : List Event) :
    r.events es = r := by
  induction es with
  | nil => rfl
  | cons e rest ih => rw [Run.events, Run.event_of_ended ended, ih]

/-- A recorded outcome ends the run (rules R63, R64). -/
@[simp] theorem Run.ended_of_stop (s : State) (x : Stop) : (⟨s, some x⟩ : Run).ended = true := rfl

/-- A run with a recorded outcome is not one that came to its end at `END_PC` (rule R73). -/
@[simp] theorem Run.final_of_stop (s : State) (x : Stop) : (⟨s, some x⟩ : Run).final = false := by
  simp [Run.final]

/-- A core step that records `x` beside the state before it stops the run there for good. -/
theorem Run.stopped_of_coreStep {r : Run} {s : State} {x : Stop}
    (stops : r.coreStep = ⟨s, some x⟩) :
    r.coreStep = ⟨s, some x⟩ ∧ r.coreStep.final = false ∧
      ∀ es, r.coreStep.events es = r.coreStep := by
  rw [stops]
  exact ⟨rfl, Run.final_of_stop s x, Run.events_of_ended (Run.ended_of_stop s x)⟩

/-- A run that goes on records the outcome of its step. -/
theorem Run.coreStep_of_not_ended {r : Run} (goesOn : r.ended = false) :
    r.coreStep = recordOutcome r.state (step r.state) := by
  simp [Run.coreStep, goesOn]

/-- Settles O33: a fault and a refusal are recorded beside the state before, and a recorded outcome
ends the run. -/
theorem stopsArePreciseAndPermanent : Obligations.StopsArePreciseAndPermanent := by
  intro r goesOn
  have records := Run.coreStep_of_not_ended goesOn
  refine ⟨fun f faults => ?_, fun x refused => ?_⟩
  · exact Run.stopped_of_coreStep (by rw [records, faults, recordOutcome])
  · exact Run.stopped_of_coreStep (by rw [records, refused, recordOutcome])

end Sys2Proof.Machine
end

section
/-! SUPPORT. The decoder and the encoder are inverse to each other (rules R38 to R43): the word of
an instruction fits its own row and, if the instruction is well formed, none that the decoder tries
before it. -/

namespace Sys2Proof

open Sys2Proof.Machine

/-- The word of an instruction fits the row of its form. -/
theorem fits_encode (i : Instr) : i.form.row.fits (encode i) = true :=
  OpRow.fits_iff.2 (encode_and_mask i)

/-- A word of one row does not fit a row that fixes one of the same bits otherwise. -/
theorem OpRow.not_fits_of_fits {r r' : OpRow} {w : IWord} (fits : r.fits w = true) (k : Nat)
    (fixed : r.mask.getLsbD k = true ∧ r'.mask.getLsbD k = true)
    (differs : r.pattern.getLsbD k ≠ r'.pattern.getLsbD k) : r'.fits w = false := by
  refine OpRow.fits_eq_false_of_bit fixed.2 ?_
  have same : w.getLsbD k = r.pattern.getLsbD k := by
    rw [← OpRow.fits_iff.1 fits, BitVec.getLsbD_and, fixed.1, Bool.and_true]
  rwa [same]

/-- A word of form (i) has displacement bits 0, so it is the word of no other displacement (rule
R43). -/
theorem fieldQ_of_fits_form_i {w : IWord} (fits : Form.i.row.fits w = true) : fieldQ w = 0 := by
  rw [eq_or_placeD_of_and_ldMask (OpRow.fits_iff.1 fits), fieldQ_or, fieldQ_placeD]
  rfl

theorem form_i_not_fits_encode_lddZ {d : RegIdx} {q : BitVec 6} (nonzero : q ≠ 0) :
    Form.i.row.fits (encode (.lddZ d q)) = false := by
  refine Bool.eq_false_iff.2 fun fits => nonzero ?_
  rw [← fieldQ_encode_lddZ d q, fieldQ_of_fits_form_i fits]

/-- Every well-formed instruction is read back from its word: bit 12 separates forms (ii) and (iii)
from the others, bit 0 the two of them, and the displacement form (iiii) from form (i). -/
theorem decode_encode {i : Instr} (wellFormed : i.wellFormed = true) :
    decode (encode i) = .instr i := by
  have dest := fieldD_encode i
  cases i with
  | ldZ d =>
    have i : Form.i.row.fits (encode (.ldZ d)) = true := fits_encode _
    simp [decode, i, dest, Instr.dest]
  | ldZInc d =>
    have ii : Form.ii.row.fits (encode (.ldZInc d)) = true := fits_encode _
    have i : Form.i.row.fits _ = false :=
      OpRow.not_fits_of_fits ii 12 (by decide) (by decide)
    simp [decode, i, ii, dest, Instr.dest]
  | ldZDec d =>
    have iii : Form.iii.row.fits (encode (.ldZDec d)) = true := fits_encode _
    have i : Form.i.row.fits _ = false :=
      OpRow.not_fits_of_fits iii 12 (by decide) (by decide)
    have ii : Form.ii.row.fits _ = false :=
      OpRow.not_fits_of_fits iii 0 (by decide) (by decide)
    simp [decode, i, ii, iii, dest, Instr.dest]
  | lddZ d q =>
    have iiii : Form.iiii.row.fits (encode (.lddZ d q)) = true := fits_encode _
    have i := form_i_not_fits_encode_lddZ (d := d) (of_decide_eq_true wellFormed)
    have ii : Form.ii.row.fits _ = false :=
      OpRow.not_fits_of_fits iiii 12 (by decide) (by decide)
    have iii : Form.iii.row.fits _ = false :=
      OpRow.not_fits_of_fits iiii 12 (by decide) (by decide)
    simp [decode, i, ii, iii, iiii, dest, fieldQ_encode_lddZ, Instr.dest]

/-- A word that decodes is the word of what it decodes to: the row it fits and its operand fields
are all of it. -/
theorem encode_of_decode {w : IWord} {i : Instr} (decoded : decode w = .instr i) :
    encode i = w := by
  unfold decode at decoded
  split_ifs at decoded with i ii iii iiii <;> cases decoded
  · exact (eq_or_placeD_of_and_ldMask (OpRow.fits_iff.1 i)).symm
  · exact (eq_or_placeD_of_and_ldMask (OpRow.fits_iff.1 ii)).symm
  · exact (eq_or_placeD_of_and_ldMask (OpRow.fits_iff.1 iii)).symm
  · exact (eq_encode_lddZ_of_and_lddMask (OpRow.fits_iff.1 iiii)).symm

/-- Only a displacement could be ill formed, and no word decodes to displacement 0. -/
theorem wellFormed_of_decode {w : IWord} {i : Instr} (decoded : decode w = .instr i) :
    i.wellFormed = true := by
  cases i with
  | ldZ d => rfl
  | ldZInc d => rfl
  | ldZDec d => rfl
  | lddZ d q => exact decide_eq_true (displacement_ne_zero_of_decode decoded)

/-- The decoder names the word it does not know. -/
theorem unknown_word_of_decode {w u : IWord} (decoded : decode w = .unknown u) : u = w := by
  unfold decode at decoded
  split_ifs at decoded
  exact (Decoded.unknown.inj decoded).symm

/-- Settles O1: the two directions of the round trip. -/
theorem decodeAndEncodeAgree : Obligations.DecodeAndEncodeAgree := by
  intro w i
  constructor
  · exact fun decoded => ⟨wellFormed_of_decode decoded, encode_of_decode decoded⟩
  · rintro ⟨wellFormed, rfl⟩
    exact decode_encode wellFormed

/-- Settles O4: nine words, each decoded by evaluation. -/
theorem knownWordsDecodeAsListed : Obligations.KnownWordsDecodeAsListed := by
  unfold Obligations.KnownWordsDecodeAsListed
  decide

/-- Settles O6: both lines stand for the same instruction, which its word decodes to. -/
theorem displacementZeroIsAnAlias : Obligations.DisplacementZeroIsAnAlias := by
  intro d
  have word : assemble (.lddZ d 0) = encode (.ldZ d) := rfl
  have decoded : decode (assemble (.lddZ d 0)) = .instr (.ldZ d) := by
    rw [word]
    exact decode_encode rfl
  refine ⟨rfl, decoded, fun i h => ?_⟩
  obtain rfl : Instr.ldZ d = i := Decoded.instr.inj (decoded.symm.trans h)
  rw [disassemble, AsmLine.text, regText, ← String.append_assoc]
  rfl

end Sys2Proof
end

section
/-! SUPPORT. Every form is one chain of operations: its own check, the pointer, the address, the
read, and then only writes (rules R49 to R54, R62). What a form can answer, and with what next
state, is read off that chain once. -/

namespace Sys2Proof.Machine

/-! ## The chain -/

/-- The address a form reads from, or the refusal of its displacement (rule R22). -/
def addressOf (w : PtrWidth) (p : Addr) : Instr → Host.Outcome Addr Fault Refusal
  | .lddZ _ q => dispAddr w p q
  | i => .next (effectiveAddr w p i)

/-- What a form writes once it has read byte `b`: its destination, in form (ii) the pointer, and the
program counter (rules R50 to R53, R57). -/
def writesAfterRead (w : PtrWidth) (p : Addr) (i : Instr) (b : Byte) (s : State) : State :=
  match i with
  | .ldZ d => (s.setReg d b).advancePc
  | .ldZInc d => (ptrSet (s.setReg d b) (ptrInc w p)).advancePc
  | .ldZDec d => (s.setReg d b).advancePc
  | .lddZ d _ => (s.setReg d b).advancePc

/-- The next state of a form that read byte `b` and left device state `ds`, the pointer before being
`p`. -/
def completedState (s : State) (p : Addr) (i : Instr) (b : Byte) (ds : DevState) : State :=
  writesAfterRead s.cfg.ptrWidth p i b ((stateAtRead s p i).setDevState ds)

theorem exec_eq_chain (i : Instr) (s : State) :
    exec i s =
      if undefinedCombination i then .fault (.undefinedCombination i.form i.dest)
      else andThen (ptrGet s) fun p =>
        andThen (addressOf s.cfg.ptrWidth p i) fun ea =>
          andThen (dataRead (stateAtRead s p i) ea) fun r =>
            .next (writesAfterRead s.cfg.ptrWidth p i r.byte r.after) := by
  cases i with
  | ldZ d => rfl
  | ldZInc d => rfl
  | ldZDec d =>
    simp only [exec, execLdZDec, ptrDec_eq]
    rfl
  | lddZ d q => rfl

/-! ## The address -/

/-- A form reads at its effective address, unless its displacement is refused. -/
theorem addressOf_eq_next {i : Instr} {s : State} {p ea : Addr} (pointer : PointerIs s p) :
    addressOf s.cfg.ptrWidth p i = .next ea ↔
      displacementCarries s.cfg.ptrWidth p i = false ∧
      ea = effectiveAddr s.cfg.ptrWidth p i := by
  cases i with
  | lddZ d q =>
    rw [displacementCarries, decide_eq_false_iff_not]
    exact dispAddr_eq_next pointer
  | _ => simp [addressOf, displacementCarries, eq_comm]

theorem addressOf_ne_fault {i : Instr} {w : PtrWidth} {p : Addr} {f : Fault} :
    addressOf w p i ≠ .fault f := by
  cases i with
  | lddZ d q =>
    cases w with
    | w8 =>
      simp only [addressOf, dispAddr]
      split <;> exact nofun
    | w16 => exact nofun
    | w24 => exact nofun
  | _ => exact nofun

/-- A displacement is refused only at pointer width 8, where the pointer is register 30 (rule
R22). -/
theorem addressOf_eq_refused {i : Instr} {s : State} {p : Addr} {r : Refusal}
    (pointer : PointerIs s p) (refused : addressOf s.cfg.ptrWidth p i = .refused r) :
    ∃ d q x, i = .lddZ d q ∧ s.cfg.ptrWidth = .w8 ∧ s.reg 30 = .holds x ∧
      256 ≤ x.toNat + q.toNat ∧ r = .disp8Carry x q := by
  cases i with
  | lddZ d q =>
    rw [addressOf, dispAddr_eq _ _ _ pointer.lt] at refused
    split_ifs at refused with carry
    obtain ⟨width, carry⟩ := carry
    obtain ⟨x, low, value⟩ := (pointerIs_w8_iff width).1 pointer
    have byte : p.setWidth 8 = x := by
      apply BitVec.eq_of_toNat_eq
      rw [BitVec.toNat_setWidth, value, Nat.mod_eq_of_lt x.isLt]
    refine ⟨d, q, x, rfl, width, low, by rwa [← value], ?_⟩
    rw [← byte]
    exact (Host.Outcome.refused.inj refused).symm
  | _ => cases refused

/-! ## What a form answers -/

/-- A form completes exactly so: nothing that would stop it applies, and the next state is what its
writes make. -/
theorem exec_eq_next {i : Instr} {s t : State} :
    exec i s = .next t ↔
      undefinedCombination i = false ∧ ∃ p b ds, PointerIs s p ∧
        displacementCarries s.cfg.ptrWidth p i = false ∧
        ReadsByte (stateAtRead s p i) (effectiveAddr s.cfg.ptrWidth p i) b ds ∧
        t = completedState s p i b ds := by
  rw [exec_eq_chain]
  constructor
  · intro completes
    split_ifs at completes with undefined
    obtain ⟨p, gets, completes⟩ := andThen_eq_next.1 completes
    obtain ⟨ea, address, completes⟩ := andThen_eq_next.1 completes
    obtain ⟨r, reads, completes⟩ := andThen_eq_next.1 completes
    have pointer := ptrGet_eq_next.1 gets
    obtain ⟨noCarry, rfl⟩ := (addressOf_eq_next pointer).1 address
    obtain ⟨b, ds, read, rfl⟩ := dataRead_eq_next.1 reads
    exact ⟨Bool.eq_false_iff.2 undefined, p, b, ds, pointer, noCarry, read,
      (Host.Outcome.next.inj completes).symm⟩
  · rintro ⟨defined, p, b, ds, pointer, noCarry, read, rfl⟩
    rw [defined, ptrGet_eq_next.2 pointer, andThen_next,
      (addressOf_eq_next pointer).2 ⟨noCarry, rfl⟩, andThen_next,
      dataRead_eq_next.2 ⟨b, ds, read, rfl⟩]
    rfl

/-- Where nothing stops a form, it completes. -/
theorem exec_completes {i : Instr} {s : State} {p : Addr} {b : Byte} {ds : DevState}
    (defined : undefinedCombination i = false) (pointer : PointerIs s p)
    (noCarry : displacementCarries s.cfg.ptrWidth p i = false)
    (read : ReadsByte (stateAtRead s p i) (effectiveAddr s.cfg.ptrWidth p i) b ds) :
    exec i s = .next (completedState s p i b ds) :=
  exec_eq_next.2 ⟨defined, p, b, ds, pointer, noCarry, read, rfl⟩

/-- The causes of a form's fault (rules R20, R54). -/
theorem exec_fault_cause {i : Instr} {s : State} {f : Fault} (faults : exec i s = .fault f) :
    (undefinedCombination i = true ∧ f = .undefinedCombination i.form i.dest) ∨
      undefinedCombination i = false ∧
        ((∃ l, PointerLacks s l ∧ f = .unwrittenRead l) ∨
          ∃ p l, PointerIs s p ∧ displacementCarries s.cfg.ptrWidth p i = false ∧
            HoldsNoByte (stateAtRead s p i) (effectiveAddr s.cfg.ptrWidth p i) l ∧
            f = .unwrittenRead l) := by
  rw [exec_eq_chain] at faults
  split_ifs at faults with undefined
  · exact .inl ⟨undefined, (Host.Outcome.fault.inj faults).symm⟩
  refine .inr ⟨Bool.eq_false_iff.2 undefined, ?_⟩
  rcases andThen_eq_fault.1 faults with atPointer | ⟨p, gets, faults⟩
  · exact .inl (ptrGet_eq_fault.1 atPointer)
  rcases andThen_eq_fault.1 faults with atAddress | ⟨ea, address, faults⟩
  · exact absurd atAddress addressOf_ne_fault
  rcases andThen_eq_fault.1 faults with atRead | ⟨r, -, faults⟩
  · have pointer := ptrGet_eq_next.1 gets
    obtain ⟨noCarry, rfl⟩ := (addressOf_eq_next pointer).1 address
    obtain ⟨l, empty, rfl⟩ := dataRead_eq_fault.1 atRead
    exact .inr ⟨p, l, pointer, noCarry, empty, rfl⟩
  · cases faults

/-- The causes of a form's refusal (rules R22, R27). -/
theorem exec_refusal_cause {i : Instr} {s : State} {r : Refusal} (refused : exec i s = .refused r) :
    undefinedCombination i = false ∧ ∃ p, PointerIs s p ∧
      ((∃ d q x, i = .lddZ d q ∧ s.cfg.ptrWidth = .w8 ∧ s.reg 30 = .holds x ∧
          256 ≤ x.toNat + q.toNat ∧ r = .disp8Carry x q) ∨
        (displacementCarries s.cfg.ptrWidth p i = false ∧
          kindAt s.cfg (effectiveAddr s.cfg.ptrWidth p i) = .unmapped ∧
          r = .unmappedAddress (effectiveAddr s.cfg.ptrWidth p i))) := by
  rw [exec_eq_chain] at refused
  split_ifs at refused with undefined
  refine ⟨Bool.eq_false_iff.2 undefined, ?_⟩
  rcases andThen_eq_refused.1 refused with atPointer | ⟨p, gets, refused⟩
  · exact absurd atPointer ptrGet_ne_refused
  have pointer := ptrGet_eq_next.1 gets
  refine ⟨p, pointer, ?_⟩
  rcases andThen_eq_refused.1 refused with atAddress | ⟨ea, address, refused⟩
  · exact .inl (addressOf_eq_refused pointer atAddress)
  rcases andThen_eq_refused.1 refused with atRead | ⟨l, -, refused⟩
  · obtain ⟨noCarry, rfl⟩ := (addressOf_eq_next pointer).1 address
    obtain ⟨unmapped, rfl⟩ := dataRead_eq_refused.1 atRead
    exact .inr ⟨noCarry, by rwa [stateAtRead_cfg] at unmapped, rfl⟩
  · cases refused

end Sys2Proof.Machine
end

section
/-! SUPPORT. Why a step does not complete (rules R8, R60): the causes that the fetch adds to those
of the form it runs. -/

namespace Sys2Proof.Machine

/-- A step beyond program memory, a step that fetches an unknown word, a step that lacks the form it
decoded, and a step that runs: there is no other. -/
theorem step_cases (s : State) :
    s.cfg.progWords ≤ s.pc ∨ ∃ w, Fetches s w ∧
      (decode w = .unknown w ∨ ∃ i, decode w = .instr i ∧
        (hasForm s.cfg i.form = false ∨ hasForm s.cfg i.form = true ∧ step s = exec i s)) := by
  rcases Nat.lt_or_ge s.pc s.cfg.progWords with inside | beyond
  · have fetches : Fetches s (progRead s s.pc) := ⟨inside, rfl⟩
    refine .inr ⟨_, fetches, ?_⟩
    cases decoded : decode (progRead s s.pc) with
    | unknown u => exact .inl (by rw [unknown_word_of_decode decoded])
    | instr i =>
      refine .inr ⟨i, rfl, ?_⟩
      cases available : hasForm s.cfg i.form with
      | false => exact .inl rfl
      | true => exact .inr ⟨rfl, step_of_hasForm fetches decoded available⟩
  · exact .inl beyond

/-- Settles O11: the fetch refuses and never faults, so a fault is one of the form that runs. -/
theorem faultsHaveOnlyTheNamedCauses : Obligations.FaultsHaveOnlyTheNamedCauses := by
  intro s f faults
  rcases step_cases s with
    beyond | ⟨w, fetches, unknown | ⟨i, decoded, lacking | ⟨available, runs⟩⟩⟩
  · cases (step_of_fetchOutOfRange beyond).symm.trans faults
  · cases (step_of_unknown fetches unknown).symm.trans faults
  · cases (step_of_lacking_form fetches decoded lacking).symm.trans faults
  · exact ⟨w, i, fetches, decoded, available, exec_fault_cause (runs.symm.trans faults)⟩

/-- Settles O12: three refusals by the fetch, two by the form that runs. -/
theorem refusalsHaveOnlyTheNamedCauses : Obligations.RefusalsHaveOnlyTheNamedCauses := by
  intro s r refused
  rcases step_cases s with
    beyond | ⟨w, fetches, unknown | ⟨i, decoded, lacking | ⟨available, runs⟩⟩⟩
  · cases (step_of_fetchOutOfRange beyond).symm.trans refused
    exact .inl ⟨beyond, rfl⟩
  · cases (step_of_unknown fetches unknown).symm.trans refused
    exact .inr ⟨w, fetches, .inl ⟨unknown, rfl⟩⟩
  · cases (step_of_lacking_form fetches decoded lacking).symm.trans refused
    exact .inr ⟨w, fetches, .inr ⟨i, decoded, .inl ⟨lacking, rfl⟩⟩⟩
  · exact .inr ⟨w, fetches, .inr ⟨i, decoded, .inr ⟨available,
      exec_refusal_cause (runs.symm.trans refused)⟩⟩⟩

/-- Settles O7: a form in `FORMS` that is not the displacement form on AVR8L is available. -/
theorem stepRunsTheDecodedInstruction : Obligations.StepRunsTheDecodedInstruction := by
  intro s w i fetches decoded listed notAvr8l
  refine step_of_hasForm fetches decoded (Bool.eq_true_of_not_eq_false fun lacking => ?_)
  rcases hasForm_eq_false_iff.1 lacking with unlisted | avr8l
  · exact unlisted listed
  · exact notAvr8l avr8l

theorem decode_of_decodeTableWord {nbits w : Nat} {i : Instr}
    (h : decodeTableWord nbits w = some i) : decode (tableWord nbits w) = .instr i := by
  unfold decodeTableWord at h
  split at h
  · rwa [← Option.some.inj h]
  · cases h

/-- Settles O8: the word placed is the word fetched. -/
theorem placedTableWordIsTheNextInstruction : Obligations.PlacedTableWordIsTheNextInstruction := by
  intro s nbits w i inside decoded available
  have fetches : Fetches (s.withFetchWord nbits w) (tableWord nbits w) :=
    ⟨inside, progRead_placeWord_self s s.pc _⟩
  exact step_of_hasForm fetches (decode_of_decodeTableWord decoded) available

/-- Settles O37: register 30 is the first cell the form reads, and it holds no value. -/
theorem firstLoadFromAnUndefinedResetFaults : Obligations.FirstLoadFromAnUndefinedResetFaults := by
  intro c prog ds w i
  have reg : ∀ j, (State.undefReset c prog ds).reg j = .undef := fun j => by
    simp [State.reg, State.undefReset]
  refine ⟨rfl, reg, rfl, rfl, fun a => rfl, fun fetches decoded available defined => ?_⟩
  rw [step_of_hasForm fetches decoded available]
  exact exec_of_pointerLacks defined (.low (reg 30))

end Sys2Proof.Machine
end

section
/-! SUPPORT. The next state of a completed form, read field by field (rules R50 to R55). -/

namespace Sys2Proof.Machine

/-! ## Addresses within the pointer width -/

/-- A number modulo `2^W` is an address of that number. -/
theorem toNat_ofNat_mod (w : PtrWidth) (n : Nat) :
    (BitVec.ofNat 24 (n % 2 ^ w.bits)).toNat = n % 2 ^ w.bits := by
  have fits : n % 2 ^ w.bits < 2 ^ 24 :=
    calc n % 2 ^ w.bits < 2 ^ w.bits := Nat.mod_lt _ (Nat.two_pow_pos _)
      _ ≤ 2 ^ 24 := Nat.pow_le_pow_right (by decide) (by cases w <;> decide)
  rw [BitVec.toNat_ofNat, Nat.mod_eq_of_lt fits]

/-- An address that is a number modulo `2^W`, said by its value. -/
theorem eq_ofNat_mod {w : PtrWidth} {a : Addr} {n : Nat} (value : a.toNat = n % 2 ^ w.bits) :
    a = BitVec.ofNat 24 (n % 2 ^ w.bits) :=
  BitVec.eq_of_toNat_eq (value.trans (toNat_ofNat_mod w n).symm)

theorem toNat_ofNat_mod_lt (w : PtrWidth) (n : Nat) :
    (BitVec.ofNat 24 (n % 2 ^ w.bits)).toNat < 2 ^ w.bits := by
  rw [toNat_ofNat_mod]
  exact Nat.mod_lt _ (Nat.two_pow_pos _)

/-- A pointer of `PTR_WIDTH` bits, once written, is the pointer. -/
theorem pointerIs_ptrSet_of_lt {s : State} {v : Addr} (fits : v.toNat < 2 ^ s.cfg.ptrWidth.bits) :
    PointerIs (ptrSet s v) v := by
  have same : truncPtr s.cfg.ptrWidth v = v :=
    BitVec.eq_of_toNat_eq (by rw [truncPtr_toNat, Nat.mod_eq_of_lt fits])
  have written := pointerIs_ptrSet s v
  rwa [same] at written

/-- A register that is no part of the pointer is kept when the pointer is written (rule R15). -/
theorem reg_ptrSet_other {s : State} {j : RegIdx} (v : Addr)
    (notPointer : ¬ (j = 30 ∨ j = 31 ∧ s.cfg.ptrWidth ≠ .w8)) : (ptrSet s v).reg j = s.reg j := by
  obtain ⟨h30, h31⟩ := not_or.1 notPointer
  rw [reg_ptrSet, if_neg h30, if_neg h31]

/-- The pointer determines the cells it is made of (rule R15). -/
theorem PointerIs.cells_eq {s t : State} {p : Addr} (hs : PointerIs s p) (ht : PointerIs t p)
    (width : t.cfg.ptrWidth = s.cfg.ptrWidth) :
    t.reg 30 = s.reg 30 ∧ (s.cfg.ptrWidth ≠ .w8 → t.reg 31 = s.reg 31) ∧
      (s.cfg.ptrWidth = .w24 → t.rampz = s.rampz) := by
  have byte_eq {x y : Byte} (h : x.toNat = y.toNat) : x = y := BitVec.eq_of_toNat_eq h
  unfold PointerIs at hs ht
  rw [width] at ht
  cases w : s.cfg.ptrWidth <;> simp only [w] at hs ht
  case w8 =>
    obtain ⟨lo, hlo, value⟩ := hs
    obtain ⟨lo', hlo', value'⟩ := ht
    obtain rfl : lo = lo' := byte_eq (by omega)
    exact ⟨hlo'.trans hlo.symm, fun h => absurd rfl h, nofun⟩
  case w16 =>
    obtain ⟨lo, hi, hlo, hhi, value⟩ := hs
    obtain ⟨lo', hi', hlo', hhi', value'⟩ := ht
    obtain rfl : lo = lo' := byte_eq (by omega)
    obtain rfl : hi = hi' := byte_eq (by omega)
    exact ⟨hlo'.trans hlo.symm, fun _ => hhi'.trans hhi.symm, nofun⟩
  case w24 =>
    obtain ⟨lo, hi, ext, hlo, hhi, hext, value⟩ := hs
    obtain ⟨lo', hi', ext', hlo', hhi', hext', value'⟩ := ht
    obtain rfl : lo = lo' := byte_eq (by omega)
    obtain rfl : hi = hi' := byte_eq (by omega)
    obtain rfl : ext = ext' := byte_eq (by omega)
    exact ⟨hlo'.trans hlo.symm, fun _ => hhi'.trans hhi.symm, fun _ => hext'.trans hext.symm⟩

/-! ## The state of the read -/

@[simp] theorem stateAtRead_pc (s : State) (p : Addr) (i : Instr) :
    (stateAtRead s p i).pc = s.pc := by
  cases i <;> simp [stateAtRead]

@[simp] theorem stateAtRead_sreg (s : State) (p : Addr) (i : Instr) :
    (stateAtRead s p i).sreg = s.sreg := by
  cases i <;> simp [stateAtRead]

@[simp] theorem stateAtRead_mem (s : State) (p : Addr) (i : Instr) :
    (stateAtRead s p i).mem = s.mem := by
  cases i <;> simp [stateAtRead]

@[simp] theorem stateAtRead_prog (s : State) (p : Addr) (i : Instr) :
    (stateAtRead s p i).prog = s.prog := by
  cases i <;> simp [stateAtRead]

@[simp] theorem stateAtRead_devState (s : State) (p : Addr) (i : Instr) :
    (stateAtRead s p i).devState = s.devState := by
  cases i <;> simp [stateAtRead]

/-! ## The writes after the read -/

section
variable (w : PtrWidth) (p : Addr) (i : Instr) (b : Byte) (s : State)

@[simp] theorem writesAfterRead_cfg : (writesAfterRead w p i b s).cfg = s.cfg := by
  cases i <;> simp [writesAfterRead]

@[simp] theorem writesAfterRead_pc :
    (writesAfterRead w p i b s).pc = (s.pc + 1) % 2 ^ s.cfg.pcBits := by
  cases i <;> simp [writesAfterRead]

@[simp] theorem writesAfterRead_sreg : (writesAfterRead w p i b s).sreg = s.sreg := by
  cases i <;> simp [writesAfterRead]

@[simp] theorem writesAfterRead_mem : (writesAfterRead w p i b s).mem = s.mem := by
  cases i <;> simp [writesAfterRead]

@[simp] theorem writesAfterRead_prog : (writesAfterRead w p i b s).prog = s.prog := by
  cases i <;> simp [writesAfterRead]

@[simp] theorem writesAfterRead_devState : (writesAfterRead w p i b s).devState = s.devState := by
  cases i <;> simp [writesAfterRead]

end

/-! ## The next state -/

section
variable (s : State) (p : Addr) (i : Instr) (b : Byte) (ds : DevState)

@[simp] theorem completedState_cfg : (completedState s p i b ds).cfg = s.cfg := by
  simp [completedState]

@[simp] theorem completedState_pc :
    (completedState s p i b ds).pc = (s.pc + 1) % 2 ^ s.cfg.pcBits := by
  simp [completedState]

@[simp] theorem completedState_sreg : (completedState s p i b ds).sreg = s.sreg := by
  simp [completedState]

@[simp] theorem completedState_mem : (completedState s p i b ds).mem = s.mem := by
  simp [completedState]

@[simp] theorem completedState_prog : (completedState s p i b ds).prog = s.prog := by
  simp [completedState]

@[simp] theorem completedState_devState : (completedState s p i b ds).devState = ds := by
  simp [completedState]

/-- The destination holds the byte read: no form of a defined combination writes the pointer over
it. -/
theorem reg_completedState_dest {i : Instr} (defined : undefinedCombination i = false) :
    (completedState s p i b ds).reg i.dest = .holds b := by
  cases i with
  | ldZInc d =>
    have notHalf : ¬ (d = 30 ∨ d = 31) := of_decide_eq_false defined
    obtain ⟨h30, h31⟩ := not_or.1 notHalf
    simp [completedState, writesAfterRead, reg_ptrSet, Instr.dest, h30, h31]
  | _ => simp [completedState, writesAfterRead, Instr.dest]

/-- A register that the form may not write is kept (rules R9, R15). -/
theorem reg_completedState_of_not_mayWriteReg {j : RegIdx}
    (kept : ¬ mayWriteReg s.cfg.ptrWidth i j) : (completedState s p i b ds).reg j = s.reg j := by
  obtain ⟨notDest, notPointer⟩ := not_or.1 kept
  cases i with
  | ldZ d => exact State.reg_setReg_other _ _ notDest
  | lddZ d q => exact State.reg_setReg_other _ _ notDest
  | ldZInc d =>
    have notWritten : ¬ (j = 30 ∨ j = 31 ∧ s.cfg.ptrWidth ≠ .w8) :=
      fun h => notPointer ⟨.inl rfl, h⟩
    calc (completedState s p (.ldZInc d) b ds).reg j
        = ((s.setDevState ds).setReg d b).reg j :=
          reg_ptrSet_other (s := (s.setDevState ds).setReg d b) _ notWritten
      _ = s.reg j := State.reg_setReg_other _ _ notDest
  | ldZDec d =>
    calc (completedState s p (.ldZDec d) b ds).reg j
        = (stateAtRead s p (.ldZDec d)).reg j := State.reg_setReg_other _ _ notDest
      _ = s.reg j := reg_ptrSet_other _ fun h => notPointer ⟨.inr rfl, h⟩

/-- RAMPZ is kept unless the form writes a 24-bit pointer (rules R14, R15). -/
theorem completedState_rampz
    (kept : pointerWritten s.cfg.ptrWidth p i = none ∨ s.cfg.ptrWidth ≠ .w24) :
    (completedState s p i b ds).rampz = s.rampz := by
  cases i with
  | ldZ d => rfl
  | lddZ d q => rfl
  | ldZInc d =>
    have narrow : s.cfg.ptrWidth ≠ .w24 := kept.resolve_left nofun
    simp [completedState, writesAfterRead, stateAtRead, ptrSet_rampz, narrow]
  | ldZDec d =>
    have narrow : s.cfg.ptrWidth ≠ .w24 := kept.resolve_left nofun
    simp [completedState, writesAfterRead, stateAtRead, ptrSet_rampz, narrow]

/-- The pointer that a form of a defined combination writes is the pointer it leaves (rule R22). -/
theorem pointerIs_completedState {i : Instr} {p' : Addr}
    (defined : undefinedCombination i = false)
    (written : pointerWritten s.cfg.ptrWidth p i = some p') :
    PointerIs (completedState s p i b ds) p' := by
  cases i with
  | ldZ d => cases written
  | lddZ d q => cases written
  | ldZInc d =>
    cases written
    rw [← ptrInc_eq]
    refine (pointerIs_congr (s := ptrSet _ _) rfl rfl rfl rfl _).2 (pointerIs_ptrSet_of_lt ?_)
    rw [ptrInc_eq]
    exact toNat_ofNat_mod_lt s.cfg.ptrWidth _
  | ldZDec d =>
    cases written
    have notHalf : ¬ (d = 30 ∨ d = 31) := of_decide_eq_false defined
    obtain ⟨h30, h31⟩ := not_or.1 notHalf
    refine (pointerIs_congr (s := ptrSet s _) ?_ ?_ ?_ ?_ _).2
      (pointerIs_ptrSet_of_lt (toNat_ofNat_mod_lt s.cfg.ptrWidth _))
    · rfl
    · exact State.reg_setReg_other _ _ (Ne.symm h30)
    · exact State.reg_setReg_other _ _ (Ne.symm h31)
    · rfl

end

theorem keepsRest_of_fields {s t : State} (cfg : t.cfg = s.cfg) (sreg : t.sreg = s.sreg)
    (mem : t.mem = s.mem) (prog : t.prog = s.prog) : KeepsRest s t where
  cfg := cfg
  sreg := sreg
  flags := State.flag_congr sreg
  memory a := by rw [State.memByte, mem, State.memByte]
  program := progRead_congr prog

theorem keepsRest_completedState (s : State) (p : Addr) (i : Instr) (b : Byte) (ds : DevState) :
    KeepsRest s (completedState s p i b ds) :=
  keepsRest_of_fields (by simp) (by simp) (by simp) (by simp)

end Sys2Proof.Machine
end

section
/-! SUPPORT. Completion of the four forms, read off the one account of the next state (rules R50 to
R54, R59), and the relation that says it all at once. -/

namespace Sys2Proof.Machine

/-! ## Which registers a form may write -/

/-- A destination outside the pointer makes no undefined combination (rule R54). -/
theorem defined_of_dest_ne {i : Instr} (h30 : i.dest ≠ 30) (h31 : i.dest ≠ 31) :
    undefinedCombination i = false := by
  cases i with
  | ldZ d => rfl
  | ldZInc d => exact decide_eq_false (not_or.2 ⟨h30, h31⟩)
  | ldZDec d => exact decide_eq_false (not_or.2 ⟨h30, h31⟩)
  | lddZ d q => rfl

/-- Forms (i) and (iiii) write their destination alone. -/
theorem not_mayWriteReg_of_form {w : PtrWidth} {i : Instr} {j : RegIdx}
    (form : ¬ (i.form = .ii ∨ i.form = .iii)) (notDest : j ≠ i.dest) : ¬ mayWriteReg w i j :=
  not_or.2 ⟨notDest, fun h => form h.1⟩

/-- No form writes a register that is neither its destination nor a half of the pointer. -/
theorem not_mayWriteReg_of_ne {w : PtrWidth} {i : Instr} {j : RegIdx} (notDest : j ≠ i.dest)
    (h30 : j ≠ 30) (h31 : j ≠ 31) : ¬ mayWriteReg w i j :=
  not_or.2 ⟨notDest, fun h => h.2.elim h30 fun h => h31 h.1⟩

/-- At pointer width 8 register 31 is written as a destination alone (rule R15). -/
theorem not_mayWriteReg_31 {w : PtrWidth} {i : Instr} (width : w = .w8) (notDest : i.dest ≠ 31) :
    ¬ mayWriteReg w i 31 := by
  have h : (31 : RegIdx) ≠ 30 := by decide
  exact not_or.2 ⟨notDest.symm, fun written => written.2.elim h fun high => high.2 width⟩

/-- Exactly forms (ii) and (iii) write the pointer (rules R50 to R53). -/
theorem exists_pointerWritten_iff {w : PtrWidth} {p : Addr} {i : Instr} :
    (∃ p', pointerWritten w p i = some p') ↔ i.form = .ii ∨ i.form = .iii := by
  cases i <;> simp [pointerWritten, Instr.form]

theorem pointerWritten_eq_none {w : PtrWidth} {p : Addr} {i : Instr}
    (form : ¬ (i.form = .ii ∨ i.form = .iii)) : pointerWritten w p i = none :=
  Option.eq_none_iff_forall_ne_some.2 fun _ written =>
    form (exists_pointerWritten_iff.1 ⟨_, written⟩)

/-! ## Completion, form by form -/

/-- A form that writes no pointer writes its destination alone (rules R50, R53). -/
theorem exec_completes_keeping_pointer {i : Instr} {s : State} {p : Addr} {b : Byte}
    {ds : DevState} (form : ¬ (i.form = .ii ∨ i.form = .iii))
    (defined : undefinedCombination i = false) (pointer : PointerIs s p)
    (noCarry : displacementCarries s.cfg.ptrWidth p i = false)
    (read : ReadsByte (stateAtRead s p i) (effectiveAddr s.cfg.ptrWidth p i) b ds) :
    ∃ t, exec i s = .next t ∧ t.reg i.dest = .holds b ∧ (∀ j, j ≠ i.dest → t.reg j = s.reg j) ∧
      t.rampz = s.rampz ∧ t.pc = (s.pc + 1) % 2 ^ s.cfg.pcBits ∧ t.devState = ds ∧
      KeepsRest s t := by
  refine ⟨completedState s p i b ds, exec_completes defined pointer noCarry read,
    reg_completedState_dest s p b ds defined, fun j notDest => ?others,
    completedState_rampz s p i b ds (.inl (pointerWritten_eq_none form)),
    completedState_pc s p i b ds, completedState_devState s p i b ds,
    keepsRest_completedState s p i b ds⟩
  exact reg_completedState_of_not_mayWriteReg s p i b ds (not_mayWriteReg_of_form form notDest)

/-- A form that writes the pointer writes its destination beside it (rules R51, R52). -/
theorem exec_completes_writing_pointer {i : Instr} {s : State} {p p' : Addr} {b : Byte}
    {ds : DevState} (h30 : i.dest ≠ 30) (h31 : i.dest ≠ 31)
    (written : pointerWritten s.cfg.ptrWidth p i = some p') (pointer : PointerIs s p)
    (noCarry : displacementCarries s.cfg.ptrWidth p i = false)
    (read : ReadsByte (stateAtRead s p i) (effectiveAddr s.cfg.ptrWidth p i) b ds) :
    ∃ t, exec i s = .next t ∧ t.reg i.dest = .holds b ∧ PointerIs t p' ∧
      (s.cfg.ptrWidth = .w8 → t.reg 31 = s.reg 31) ∧
      (s.cfg.ptrWidth ≠ .w24 → t.rampz = s.rampz) ∧
      (∀ j, j ≠ i.dest → j ≠ 30 → j ≠ 31 → t.reg j = s.reg j) ∧
      t.pc = (s.pc + 1) % 2 ^ s.cfg.pcBits ∧ t.devState = ds ∧ KeepsRest s t := by
  have defined := defined_of_dest_ne h30 h31
  have keeps := @reg_completedState_of_not_mayWriteReg s p i b ds
  refine ⟨completedState s p i b ds, exec_completes defined pointer noCarry read,
    reg_completedState_dest s p b ds defined, pointerIs_completedState s p b ds defined written,
    fun width => keeps (not_mayWriteReg_31 width h31),
    fun narrow => completedState_rampz s p i b ds (.inr narrow),
    fun j notDest hj30 hj31 => keeps (not_mayWriteReg_of_ne notDest hj30 hj31),
    completedState_pc s p i b ds, completedState_devState s p i b ds,
    keepsRest_completedState s p i b ds⟩

/-- Settles O14: form (i) reads at the pointer and writes none. -/
theorem ldZLoadsTheByteAtThePointer : Obligations.LdZLoadsTheByteAtThePointer := by
  intro d s p b ds pointer read
  exact exec_completes_keeping_pointer (i := .ldZ d) nofun rfl pointer rfl read

/-- Settles O17: form (iiii) reads at the displaced address and writes no pointer. -/
theorem lddZLoadsAtTheDisplacement : Obligations.LddZLoadsAtTheDisplacement := by
  intro d q s p ea b ds pointer noCarry address read
  obtain rfl := eq_ofNat_mod address
  exact exec_completes_keeping_pointer (i := .lddZ d q) nofun rfl pointer
    (decide_eq_false noCarry) read

/-- Settles O15: form (ii) reads at the pointer, then writes it. -/
theorem ldZIncLoadsThenIncrements : Obligations.LdZIncLoadsThenIncrements := by
  intro d s p b ds h30 h31 pointer read
  exact exec_completes_writing_pointer (i := .ldZInc d) h30 h31 rfl pointer rfl read

/-- Settles O16: form (iii) writes the pointer, then reads there. -/
theorem ldZDecDecrementsThenLoads : Obligations.LdZDecDecrementsThenLoads := by
  intro d s p p' b ds h30 h31 pointer address read
  obtain rfl := eq_ofNat_mod address
  exact exec_completes_writing_pointer (i := .ldZDec d) h30 h31 rfl pointer rfl read

/-! ## Completion as a relation -/

/-- The next state that a form makes is one the rules give. -/
theorem completes_completedState {i : Instr} {s : State} {p : Addr} {b : Byte} {ds : DevState}
    (defined : undefinedCombination i = false) (pointer : PointerIs s p)
    (noCarry : displacementCarries s.cfg.ptrWidth p i = false)
    (read : ReadsByte (stateAtRead s p i) (effectiveAddr s.cfg.ptrWidth p i) b ds) :
    Completes i s (completedState s p i b ds) :=
  .intro p b ds defined pointer noCarry read
    (dest := reg_completedState_dest s p b ds defined)
    (written := fun _ => pointerIs_completedState s p b ds defined)
    (otherRegs := fun _ => reg_completedState_of_not_mayWriteReg s p i b ds)
    (rampz := completedState_rampz s p i b ds)
    (pc := completedState_pc s p i b ds)
    (device := completedState_devState s p i b ds)
    (cfg := completedState_cfg s p i b ds)
    (sreg := completedState_sreg s p i b ds)
    (mem := completedState_mem s p i b ds)
    (prog := completedState_prog s p i b ds)

/-- The rules leave one next state: a register is the destination, or part of a pointer that is
written, or kept, and RAMPZ is one of the last two. -/
theorem eq_completedState {i : Instr} {s t : State} {p : Addr} {b : Byte} {ds : DevState}
    (defined : undefinedCombination i = false) (dest : t.reg i.dest = .holds b)
    (written : ∀ p', pointerWritten s.cfg.ptrWidth p i = some p' → PointerIs t p')
    (otherRegs : ∀ j, ¬ mayWriteReg s.cfg.ptrWidth i j → t.reg j = s.reg j)
    (rampz : pointerWritten s.cfg.ptrWidth p i = none ∨ s.cfg.ptrWidth ≠ .w24 → t.rampz = s.rampz)
    (pc : t.pc = (s.pc + 1) % 2 ^ s.cfg.pcBits) (device : t.devState = ds) (cfg : t.cfg = s.cfg)
    (sreg : t.sreg = s.sreg) (mem : t.mem = s.mem) (prog : t.prog = s.prog) :
    t = completedState s p i b ds := by
  have cells {p' : Addr} (hp' : pointerWritten s.cfg.ptrWidth p i = some p') :=
    (pointerIs_completedState s p b ds defined hp').cells_eq (written p' hp')
      (by rw [cfg, completedState_cfg])
  rw [completedState_cfg] at cells
  refine State.eq_of_fields (by simp [cfg]) (fun j => ?registers) (by simp [pc]) (by simp [sreg])
    ?rampz (by simp [mem]) (by simp [prog]) (by simp [device])
  case registers =>
    by_cases writes : mayWriteReg s.cfg.ptrWidth i j
    · rcases writes with rfl | ⟨form, half⟩
      · rw [dest, reg_completedState_dest s p b ds defined]
      · obtain ⟨p', hp'⟩ := exists_pointerWritten_iff.2 form
        obtain ⟨low, high, -⟩ := cells hp'
        rcases half with rfl | ⟨rfl, wide⟩
        · exact low
        · exact high wide
    · rw [otherRegs j writes, reg_completedState_of_not_mayWriteReg s p i b ds writes]
  case rampz =>
    by_cases kept : pointerWritten s.cfg.ptrWidth p i = none ∨ s.cfg.ptrWidth ≠ .w24
    · rw [rampz kept, completedState_rampz s p i b ds kept]
    · obtain ⟨writes, wide⟩ := not_or.1 kept
      obtain ⟨p', hp'⟩ := Option.ne_none_iff_exists'.1 writes
      obtain ⟨-, -, ext⟩ := cells hp'
      exact ext (not_not.1 wide)

/-- Settles O18: what a form answers is allowed by the rules, and the rules allow nothing else. -/
theorem execCompletesExactlyAsTheRulesSay : Obligations.ExecCompletesExactlyAsTheRulesSay := by
  intro i s t
  constructor
  · intro completes
    obtain ⟨defined, p, b, ds, pointer, noCarry, read, rfl⟩ := exec_eq_next.1 completes
    exact completes_completedState defined pointer noCarry read
  · rintro ⟨p, b, ds, defined, pointer, noCarry, read, dest, written, otherRegs, rampz, pc, device,
      cfg, sreg, mem, prog⟩
    rw [eq_completedState defined dest written otherRegs rampz pc device cfg sreg mem prog]
    exact exec_completes defined pointer noCarry read

/-! ## The frame -/

/-- A read changes the device state only at an I/O location of the platform (rule R25). -/
theorem ReadsByte.devState_eq {s : State} {a : Addr} {b : Byte} {ds : DevState}
    (read : ReadsByte s a b ds)
    (quiet : ∀ k, kindAt s.cfg a = .io k → isRampzAddr s.cfg a = true) : ds = s.devState := by
  cases read with
  | io kind notRampz => exact absurd (quiet _ kind) (by simp [notRampz])
  | _ => rfl

/-- Settles O19: each clause is a field of the next state. -/
theorem execChangesOnlyItsTargets : Obligations.ExecChangesOnlyItsTargets := by
  intro i s t completes
  obtain ⟨defined, p, b, ds, pointer, noCarry, read, rfl⟩ := exec_eq_next.1 completes
  refine ⟨fun j => reg_completedState_of_not_mayWriteReg s p i b ds, fun changed => ?rampz,
    fun p' pointer' quiet => ?device, keepsRest_completedState s p i b ds⟩
  case rampz =>
    obtain ⟨writes, wide⟩ := not_or.1 (mt (completedState_rampz s p i b ds) changed)
    exact ⟨not_not.1 wide, not_not.1 fun form => writes (pointerWritten_eq_none form)⟩
  case device =>
    obtain rfl := pointer.unique pointer'
    rw [completedState_devState, read.devState_eq (by simpa using quiet), stateAtRead_devState]

/-! ## Loads into the pointer -/

theorem toNat_pointerWithByte_30 (w : PtrWidth) (p : Addr) (b : Byte) :
    (pointerWithByte w p 30 b).toNat = p.toNat / 256 * 256 + b.toNat := by
  have := p.isLt
  have := b.isLt
  rw [pointerWithByte, if_pos rfl, BitVec.toNat_ofNat, Nat.mod_eq_of_lt (by omega)]

theorem toNat_pointerWithByte_31 {w : PtrWidth} (wide : w ≠ .w8) (p : Addr) (b : Byte) :
    (pointerWithByte w p 31 b).toNat =
      p.toNat / 65536 * 65536 + b.toNat * 256 + p.toNat % 256 := by
  have := p.isLt
  have := b.isLt
  rw [pointerWithByte, if_neg (by decide), if_neg wide, BitVec.toNat_ofNat,
    Nat.mod_eq_of_lt (by omega)]

/-- A byte loaded into register 30 replaces the low byte of the pointer. -/
theorem pointerIs_setReg_30 {s : State} {p : Addr} (pointer : PointerIs s p) (b : Byte) :
    PointerIs (s.setReg 30 b) (pointerWithByte s.cfg.ptrWidth p 30 b) := by
  have high : (s.setReg 30 b).reg 31 = s.reg 31 := State.reg_setReg_other s b (by decide)
  have := b.isLt
  unfold PointerIs at pointer ⊢
  rw [toNat_pointerWithByte_30, State.reg_setReg_self, high, State.setReg_cfg,
    State.setReg_rampz]
  cases width : s.cfg.ptrWidth <;> simp only [width] at pointer ⊢
  case w8 =>
    obtain ⟨lo, -, value⟩ := pointer
    exact ⟨b, rfl, by omega⟩
  case w16 =>
    obtain ⟨lo, hi, -, hhi, value⟩ := pointer
    exact ⟨b, hi, rfl, hhi, by omega⟩
  case w24 =>
    obtain ⟨lo, hi, ext, -, hhi, hext, value⟩ := pointer
    exact ⟨b, hi, ext, rfl, hhi, hext, by omega⟩

/-- A byte loaded into register 31 replaces the second byte of the pointer, which at pointer width 8
has none. -/
theorem pointerIs_setReg_31 {s : State} {p : Addr} (pointer : PointerIs s p) (b : Byte) :
    PointerIs (s.setReg 31 b) (pointerWithByte s.cfg.ptrWidth p 31 b) := by
  have low : (s.setReg 31 b).reg 30 = s.reg 30 := State.reg_setReg_other s b (by decide)
  have := b.isLt
  unfold PointerIs at pointer ⊢
  rw [State.reg_setReg_self, low, State.setReg_cfg, State.setReg_rampz]
  cases width : s.cfg.ptrWidth <;> simp only [width] at pointer ⊢
  case w8 => exact pointer
  case w16 =>
    obtain ⟨lo, hi, hlo, -, value⟩ := pointer
    exact ⟨lo, b, hlo, rfl, by rw [toNat_pointerWithByte_31 (w := .w16) nofun]; omega⟩
  case w24 =>
    obtain ⟨lo, hi, ext, hlo, -, hext, value⟩ := pointer
    exact ⟨lo, b, ext, hlo, rfl, hext,
      by rw [toNat_pointerWithByte_31 (w := .w24) nofun]; omega⟩

/-- A byte loaded into a half of the pointer replaces that half (rule R59). -/
theorem pointerIs_setReg_half {s : State} {p : Addr} {d : RegIdx} (half : d = 30 ∨ d = 31)
    (pointer : PointerIs s p) (b : Byte) :
    PointerIs (s.setReg d b) (pointerWithByte s.cfg.ptrWidth p d b) := by
  rcases half with rfl | rfl
  · exact pointerIs_setReg_30 pointer b
  · exact pointerIs_setReg_31 pointer b

/-- Settles O21: the pointer that is left is the one before with the destination's half replaced. -/
theorem loadsIntoThePointerAreDefined : Obligations.LoadsIntoThePointerAreDefined := by
  intro d q s p b ds half pointer
  refine ⟨fun read => ?_, fun noCarry read => ?_⟩
  · refine ⟨_, exec_completes (i := .ldZ d) rfl pointer rfl read,
      reg_completedState_dest (i := .ldZ d) s p b ds rfl, ?_⟩
    exact (pointerIs_congr (s := s.setReg d b) rfl rfl rfl rfl _).2
      (pointerIs_setReg_half half pointer b)
  · refine ⟨_, exec_completes (i := .lddZ d q) rfl pointer noCarry read,
      reg_completedState_dest (i := .lddZ d q) s p b ds rfl, ?_⟩
    exact (pointerIs_congr (s := s.setReg d b) rfl rfl rfl rfl _).2
      (pointerIs_setReg_half half pointer b)

/-! ## Displacement 0 -/

/-- Settles O22: the displaced address is the pointer. -/
theorem displacementZeroActsAsLdZ : Obligations.DisplacementZeroActsAsLdZ := by
  intro d s
  cases gets : ptrGet s with
  | next p =>
    have pointer := ptrGet_eq_next.1 gets
    have fits := pointer.lt
    have address : dispAddr s.cfg.ptrWidth p 0 = .next p := by
      refine (dispAddr_eq_next pointer).2 ⟨fun carry => ?_, eq_ofNat_mod ?_⟩
      · rw [carry.1] at fits
        exact absurd carry.2 (Nat.not_le.2 fits)
      · exact (Nat.mod_eq_of_lt fits).symm
    rw [exec, exec, execLddZ, execLdZ, gets, andThen_next, andThen_next, address, andThen_next]
  | fault f => rw [exec, exec, execLddZ, execLdZ, gets, andThen_fault, andThen_fault]
  | refused r => exact absurd gets ptrGet_ne_refused

end Sys2Proof.Machine
end

section
/-! SUPPORT. What a load returns by the kind of its location: register storage in the printed order
of read and update (rule R24), I/O locations (rule R25), memory across two loads (rule R23). -/

namespace Sys2Proof.Machine

/-! ## What a completed form leaves -/

theorem exec_keepsRest {i : Instr} {s t : State} (completes : exec i s = .next t) :
    KeepsRest s t := by
  obtain ⟨-, p, b, ds, -, -, -, rfl⟩ := exec_eq_next.1 completes
  exact keepsRest_completedState s p i b ds

/-- A completed form leaves the pointer its own arithmetic gives (rule R22). -/
theorem pointerIs_of_exec {i : Instr} {s t : State} {p p' : Addr} (completes : exec i s = .next t)
    (pointer : PointerIs s p) (written : pointerWritten s.cfg.ptrWidth p i = some p') :
    PointerIs t p' := by
  obtain ⟨defined, q, b, ds, pointerQ, -, -, rfl⟩ := exec_eq_next.1 completes
  obtain rfl := pointerQ.unique pointer
  exact pointerIs_completedState s q b ds defined written

/-- The destination of a completed form holds a byte read at the effective address, and the device
state is what that read leaves. -/
theorem exists_read_of_exec {i : Instr} {s t : State} {p : Addr} (completes : exec i s = .next t)
    (pointer : PointerIs s p) :
    ∃ b, t.reg i.dest = .holds b ∧
      ReadsByte (stateAtRead s p i) (effectiveAddr s.cfg.ptrWidth p i) b t.devState := by
  obtain ⟨defined, q, b, ds, pointerQ, -, read, rfl⟩ := exec_eq_next.1 completes
  obtain rfl := pointerQ.unique pointer
  exact ⟨b, reg_completedState_dest s q b ds defined, by rwa [completedState_devState]⟩

/-! ## Register locations -/

theorem extractLsb'_low (a : Addr) : a.extractLsb' 0 8 = BitVec.ofNat 8 a.toNat := by
  rw [BitVec.extractLsb', Nat.shiftRight_zero]

theorem extractLsb'_second (a : Addr) : a.extractLsb' 8 8 = BitVec.ofNat 8 (a.toNat / 256) := by
  rw [BitVec.extractLsb', Nat.shiftRight_eq_div_pow]

/-- Form (i) from the storage of its own destination writes back what it read. -/
theorem exec_ldZ_from_dest {d : RegIdx} {s : State} {p : Addr} {b : Byte} (pointer : PointerIs s p)
    (kind : kindAt s.cfg p = .reg d) (value : s.reg d = .holds b) :
    ∃ t, exec (.ldZ d) s = .next t ∧ ∀ j, t.reg j = s.reg j := by
  obtain ⟨t, completes, dest, others, -⟩ :=
    ldZLoadsTheByteAtThePointer d s p b _ pointer (.reg kind value)
  refine ⟨t, completes, fun j => ?_⟩
  by_cases hj : j = d
  · rw [hj, dest, value]
  · exact others j hj

/-- Form (iii) from the storage of a half of the pointer reads the half it has just written. -/
theorem exec_ldZDec_from_pointer {d r : RegIdx} {s : State} {p p' : Addr} {b : Byte}
    (h30 : d ≠ 30) (h31 : d ≠ 31) (pointer : PointerIs s p)
    (address : p'.toNat = (p.toNat + 2 ^ s.cfg.ptrWidth.bits - 1) % 2 ^ s.cfg.ptrWidth.bits)
    (kind : kindAt s.cfg p' = .reg r) (written : (ptrSet s p').reg r = .holds b) :
    ∃ t, exec (.ldZDec d) s = .next t ∧ t.reg d = .holds b := by
  have read : ReadsByte (ptrSet s p') p' b (ptrSet s p').devState :=
    .reg (by rw [ptrSet_cfg, kind]) written
  obtain ⟨t, completes, dest, -⟩ :=
    ldZDecDecrementsThenLoads d s p p' b _ h30 h31 pointer address read
  exact ⟨t, completes, dest⟩

/-- Settles O27: each clause is the completion of its form, with the register read before or after
the pointer is written as the form has it. -/
theorem registerLocationsFollowThePrintedOrder :
    Obligations.RegisterLocationsFollowThePrintedOrder := by
  intro d r s p p' b pointer
  refine ⟨exec_ldZ_from_dest pointer, fun h30 h31 kind value => ?increment,
    fun h30 h31 address => ⟨fun kind => ?low, fun kind wide => ?second⟩⟩
  case increment =>
    obtain ⟨t, completes, dest, -⟩ :=
      ldZIncLoadsThenIncrements d s p b _ h30 h31 pointer (.reg kind value)
    exact ⟨t, completes, dest⟩
  case low =>
    refine exec_ldZDec_from_pointer h30 h31 pointer address kind ?_
    rw [reg_ptrSet, if_pos rfl, extractLsb'_low]
  case second =>
    refine exec_ldZDec_from_pointer h30 h31 pointer address kind ?_
    rw [reg_ptrSet, if_neg (by decide), if_pos ⟨rfl, wide⟩, extractLsb'_second]

/-! ## I/O locations -/

theorem isRampzAddr_iff {c : Device} {a : Addr} :
    isRampzAddr c a = true ↔ c.ptrWidth = .w24 ∧ c.rampzAddr = some a.toNat :=
  decide_eq_true_iff

/-- A read of RAMPZ's location returns RAMPZ. -/
theorem ReadsByte.eq_rampz {s : State} {a : Addr} {k : Nat} {b : Byte} {ds : DevState}
    (read : ReadsByte s a b ds) (kind : kindAt s.cfg a = .io k)
    (rampz : isRampzAddr s.cfg a = true) : s.rampz = .holds b ∧ ds = s.devState := by
  cases read with
  | rampz _ _ value => exact ⟨value, rfl⟩
  | io _ notRampz => exact absurd rampz (by simp [notRampz])
  | reg other _ | ram other _ | extRam other _ | flash other =>
    exact absurd (kind.symm.trans other) nofun

/-- A read of any other I/O location returns the platform's byte. -/
theorem ReadsByte.eq_io {s : State} {a : Addr} {k : Nat} {b : Byte} {ds : DevState}
    (read : ReadsByte s a b ds) (kind : kindAt s.cfg a = .io k)
    (notRampz : isRampzAddr s.cfg a = false) :
    b = Config.ioByte k s.devState ∧ ds = Config.ioNext k s.devState := by
  cases read with
  | rampz _ rampz _ => exact absurd rampz (by simp [notRampz])
  | io other _ =>
    obtain rfl := LocKind.io.inj (kind.symm.trans other)
    exact ⟨rfl, rfl⟩
  | reg other _ | ram other _ | extRam other _ | flash other =>
    exact absurd (kind.symm.trans other) nofun

/-- Settles O28: the read of a completed form is one of the two I/O reads. -/
theorem ioReadsAreRampzOrThePlatforms : Obligations.IoReadsAreRampzOrThePlatforms := by
  intro i s t p k completes pointer kind
  obtain ⟨b, dest, read⟩ := exists_read_of_exec completes pointer
  rw [← isRampzAddr_iff, dest]
  generalize effectiveAddr s.cfg.ptrWidth p i = ea at *
  rw [← stateAtRead_cfg s p i] at kind ⊢
  refine ⟨fun rampz => ?_, fun notRampz => ?_⟩
  · obtain ⟨value, device⟩ := read.eq_rampz kind rampz
    exact ⟨value.symm, by rw [device, stateAtRead_devState]⟩
  · obtain ⟨byte, device⟩ := read.eq_io kind (Bool.eq_false_iff.2 notRampz)
    rw [stateAtRead_devState] at byte device
    exact ⟨by rw [byte], device⟩

/-! ## Memory, read twice -/

/-- A read of internal or external SRAM returns the byte of memory. -/
theorem ReadsByte.memByte_eq {s : State} {a : Addr} {b : Byte} {ds : DevState}
    (read : ReadsByte s a b ds) (sram : isMemKind (kindAt s.cfg a) = true) :
    s.memByte a.toNat = some b := by
  cases read with
  | ram _ value => exact value
  | extRam _ value => exact value
  | reg kind _ | rampz kind _ _ | io kind _ | flash kind =>
    rw [kind] at sram
    cases sram

/-- A decrement undoes an increment, modulo any `n` above the number. -/
theorem inc_dec_mod {p n : Nat} (below : p < n) : ((p + 1) % n + n - 1) % n = p := by
  rcases Nat.lt_or_ge (p + 1) n with inside | top
  · rw [Nat.mod_eq_of_lt inside, show p + 1 + n - 1 = p + n by omega, Nat.add_mod_right,
      Nat.mod_eq_of_lt below]
  · obtain rfl : n = p + 1 := by omega
    rw [Nat.mod_self, Nat.zero_add, Nat.add_sub_cancel, Nat.mod_eq_of_lt below]

/-- Form (iii) after form (ii) reads where form (ii) read (rule R22). -/
theorem effectiveAddr_dec_of_inc {w : PtrWidth} {p q : Addr} {d e : RegIdx}
    (fits : p.toNat < 2 ^ w.bits) (written : pointerWritten w p (.ldZInc d) = some q) :
    effectiveAddr w q (.ldZDec e) = p := by
  obtain rfl := Option.some.inj written
  apply BitVec.eq_of_toNat_eq
  rw [effectiveAddr, toNat_ofNat_mod, toNat_ofNat_mod, inc_dec_mod fits]

/-- A completed load from internal or external SRAM leaves the byte of memory in its destination. -/
theorem exists_memByte_of_exec {i : Instr} {s t : State} {p a : Addr}
    (completes : exec i s = .next t) (pointer : PointerIs s p)
    (address : effectiveAddr s.cfg.ptrWidth p i = a) (sram : isMemKind (kindAt s.cfg a) = true) :
    ∃ b, t.reg i.dest = .holds b ∧ s.memByte a.toNat = some b := by
  obtain ⟨b, dest, read⟩ := exists_read_of_exec completes pointer
  rw [address] at read
  have byte := read.memByte_eq (by rwa [stateAtRead_cfg])
  rw [State.memByte, stateAtRead_mem] at byte
  exact ⟨b, dest, byte⟩

/-- Settles O29: the second load goes back to the address of the first, and no load writes
memory. -/
theorem incrementThenDecrementReturns : Obligations.IncrementThenDecrementReturns := by
  intro d e s t u p pointer first second
  have kept := exec_keepsRest first
  obtain ⟨q, written⟩ : ∃ q, pointerWritten s.cfg.ptrWidth p (.ldZInc d) = some q := ⟨_, rfl⟩
  have incremented := pointerIs_of_exec first pointer written
  have back : effectiveAddr t.cfg.ptrWidth q (.ldZDec e) = p := by
    rw [kept.cfg]
    exact effectiveAddr_dec_of_inc pointer.lt written
  have decremented : PointerIs u p := back ▸ pointerIs_of_exec second incremented rfl
  refine ⟨decremented, fun sram => ?_⟩
  obtain ⟨b, destT, byte⟩ := exists_memByte_of_exec first pointer rfl sram
  obtain ⟨b', destU, byte'⟩ :=
    exists_memByte_of_exec second incremented back (by rwa [kept.cfg])
  rw [kept.memory] at byte'
  obtain rfl : b = b' := Option.some.inj (byte.symm.trans byte')
  exact destU.trans destT.symm

end Sys2Proof.Machine
end

section
/-! SUPPORT. State that a form does not see: an update that its operations neither read nor write
over may be made before the form or after it. Register 31 at pointer width 8 and RAMPZ below pointer
width 24 are such state (rules R10, R14, R15). -/

namespace Sys2Proof.Machine

/-- The operations of a form with destination `d`, on the device `c`, do not see the update `f`. -/
structure Unseen (c : Device) (d : RegIdx) (f : State → State) : Prop where
  cfg (s : State) : (f s).cfg = s.cfg
  ptrGet (s : State) : s.cfg = c → ptrGet (f s) = ptrGet s
  ptrSet (s : State) (v : Addr) : s.cfg = c → ptrSet (f s) v = f (ptrSet s v)
  dataRead (s : State) (a : Addr) : s.cfg = c →
    dataRead (f s) a = andThen (dataRead s a) fun r => .next ⟨r.byte, f r.after⟩
  setReg (s : State) (v : Byte) : (f s).setReg d v = f (s.setReg d v)
  advancePc (s : State) : (f s).advancePc = f s.advancePc

theorem andThen_congr {α β : Type} {o : Host.Outcome α Fault Refusal}
    {k k' : α → Host.Outcome β Fault Refusal} (same : ∀ a, o = .next a → k a = k' a) :
    andThen o k = andThen o k' := by
  cases o with
  | next a => exact same a rfl
  | fault f => rfl
  | refused r => rfl

theorem andThen_assoc {α β γ : Type} (o : Host.Outcome α Fault Refusal)
    (k : α → Host.Outcome β Fault Refusal) (l : β → Host.Outcome γ Fault Refusal) :
    andThen (andThen o k) l = andThen o fun a => andThen (k a) l := by
  cases o <;> rfl

theorem dataRead_after_cfg {s : State} {a : Addr} {r : Loaded} (reads : dataRead s a = .next r) :
    r.after.cfg = s.cfg := by
  obtain ⟨b, ds, -, rfl⟩ := dataRead_eq_next.1 reads
  rfl

section
variable {c : Device} {f : State → State} {i : Instr} {s : State}

theorem Unseen.stateAtRead_eq (unseen : Unseen c i.dest f) (device : s.cfg = c) (p : Addr) :
    stateAtRead (f s) p i = f (stateAtRead s p i) := by
  cases i with
  | ldZDec d => rw [stateAtRead, stateAtRead, unseen.cfg, unseen.ptrSet _ _ device]
  | _ => rfl

theorem Unseen.writesAfterRead_eq (unseen : Unseen c i.dest f) (device : s.cfg = c)
    (w : PtrWidth) (p : Addr) (b : Byte) :
    writesAfterRead w p i b (f s) = f (writesAfterRead w p i b s) := by
  cases i with
  | ldZInc d =>
    have written : (f s).setReg d b = f (s.setReg d b) := unseen.setReg s b
    have pointer := unseen.ptrSet (s.setReg d b) (ptrInc w p) device
    rw [writesAfterRead, written, pointer, unseen.advancePc, writesAfterRead]
  | ldZ d | ldZDec d | lddZ d q =>
    have written : (f s).setReg d b = f (s.setReg d b) := unseen.setReg s b
    rw [writesAfterRead, written, unseen.advancePc, writesAfterRead]

/-- An update that the operations of a form do not see may be made before it or after it. -/
theorem Unseen.exec_eq (unseen : Unseen s.cfg i.dest f) :
    exec i (f s) = mapNext f (exec i s) := by
  rw [exec_eq_chain, exec_eq_chain, unseen.cfg, unseen.ptrGet s rfl]
  split_ifs
  · rfl
  simp only [mapNext_andThen]
  refine andThen_congr fun p _ => andThen_congr fun ea _ => ?_
  rw [unseen.stateAtRead_eq rfl, unseen.dataRead _ _ (stateAtRead_cfg s p i), andThen_assoc]
  refine andThen_congr fun r reads => ?_
  have device := (dataRead_after_cfg reads).trans (stateAtRead_cfg s p i)
  exact congrArg _ (unseen.writesAfterRead_eq device _ _ _)

end

/-- A data-space read does not see an update of what its location does not hold. -/
theorem dataRead_of_unseen {s : State} {a : Addr} {f : State → State} (cfg : (f s).cfg = s.cfg)
    (mem : (f s).mem = s.mem) (reg : ∀ j, kindAt s.cfg a = .reg j → (f s).reg j = s.reg j)
    (rampz : isRampzAddr s.cfg a = true → (f s).rampz = s.rampz)
    (devState : (f s).devState = s.devState)
    (setDevState : ∀ ds, (f s).setDevState ds = f (s.setDevState ds)) :
    dataRead (f s) a = andThen (dataRead s a) fun r => .next ⟨r.byte, f r.after⟩ := by
  have readMem_eq : readMem (f s) a = readMem s a := by
    rw [readMem, readMem, State.memByte, State.memByte, mem]
  unfold dataRead
  rw [cfg]
  cases kind : kindAt s.cfg a with
  | reg j =>
    simp only [reg j kind, andThen_quietly]
    rfl
  | io k =>
    simp only [readIo, cfg]
    split_ifs with isRampz
    · simp only [rampz isRampz, andThen_quietly]
      rfl
    · rw [devState, setDevState, andThen_next]
  | ram | extRam =>
    simp only [readMem_eq, andThen_quietly]
    rfl
  | flash => rfl
  | unmapped => rfl

/-! ## Register 31 at pointer width 8 -/

theorem State.reg_withReg_other (s : State) {i j : RegIdx} (c : ByteCell) (h : j ≠ i) :
    (s.withReg i c).reg j = s.reg j := by
  have h' : i.val ≠ j.val := fun e => h (Fin.ext e.symm)
  simp [State.reg, Vector.getElem_set_ne, h']

theorem State.setReg_withReg (s : State) {i j : RegIdx} (c : ByteCell) (v : Byte) (h : j ≠ i) :
    (s.withReg i c).setReg j v = (s.setReg j v).withReg i c := by
  have h' : i.val ≠ j.val := fun e => h (Fin.ext e.symm)
  simp only [State.withReg, State.setReg]
  rw [Vector.set_comm _ _ h']

theorem unseen_withReg_31 {c : Device} {d : RegIdx} (cell : ByteCell) (width : c.ptrWidth = .w8)
    (notDest : d ≠ 31) (unmapped : ∀ a, kindAt c a ≠ .reg 31) :
    Unseen c d fun s => s.withReg 31 cell where
  cfg s := rfl
  ptrGet := by
    rintro s rfl
    have low : (s.withReg 31 cell).reg 30 = s.reg 30 := s.reg_withReg_other cell (by decide)
    simp only [ptrGet, State.withReg_cfg, width, readPtrReg, regZL, low]
  ptrSet := by
    rintro s v rfl
    simp only [ptrSet, State.withReg_cfg, width]
    exact s.setReg_withReg cell _ (by decide)
  dataRead := by
    rintro s a rfl
    refine dataRead_of_unseen (f := fun s => s.withReg 31 cell) rfl rfl (fun j kind => ?_)
      (fun _ => rfl) rfl fun ds => rfl
    exact s.reg_withReg_other cell fun h => unmapped a (h ▸ kind)
  setReg s v := s.setReg_withReg cell v notDest
  advancePc s := rfl

/-- Settles O25: at pointer width 8 no operation of a form sees register 31. -/
theorem eightBitPointersIgnoreRegister31 : Obligations.EightBitPointersIgnoreRegister31 := by
  intro i s cell width notDest unmapped
  exact (unseen_withReg_31 cell width notDest unmapped).exec_eq

/-! ## RAMPZ below pointer width 24 -/

/-- The state with the cell RAMPZ replaced, a value or `undef`. -/
def State.withRampz (s : State) (c : ByteCell) : State :=
  { s with rampz := c }

theorem unseen_withRampz {c : Device} {d : RegIdx} (cell : ByteCell) (narrow : c.ptrWidth ≠ .w24) :
    Unseen c d fun s => s.withRampz cell where
  cfg s := rfl
  ptrGet := by
    rintro s rfl
    have cfg : (s.withRampz cell).cfg = s.cfg := rfl
    unfold ptrGet
    rw [cfg]
    cases width : s.cfg.ptrWidth with
    | w8 => rfl
    | w16 => rfl
    | w24 => exact absurd width narrow
  ptrSet := by
    rintro s v rfl
    have cfg : (s.withRampz cell).cfg = s.cfg := rfl
    unfold ptrSet
    rw [cfg]
    cases width : s.cfg.ptrWidth with
    | w8 => rfl
    | w16 => rfl
    | w24 => exact absurd width narrow
  dataRead := by
    rintro s a rfl
    refine dataRead_of_unseen (f := fun s => s.withRampz cell) rfl rfl (fun _ _ => rfl)
      (fun isRampz => ?_) rfl fun ds => rfl
    exact absurd (isRampzAddr_iff.1 isRampz).1 narrow
  setReg s v := rfl
  advancePc s := rfl

/-- Settles O26: below pointer width 24 no operation of a form sees RAMPZ. -/
theorem rampzMattersOnlyAt24Bits : Obligations.RampzMattersOnlyAt24Bits := by
  intro i s cell narrow
  exact (unseen_withRampz cell narrow).exec_eq

end Sys2Proof.Machine
end

section
/-! SUPPORT. What every step and every run keep: the form of the state, the memories where no agent
acts, and registers that hold values (rules R12, R20, R33, R35, R61). -/

namespace Sys2Proof.Machine

/-! ## Steps -/

/-- A completed step changes neither the device nor a memory. -/
theorem step_keeps {s t : State} (completes : step s = .next t) :
    t.cfg = s.cfg ∧ t.mem = s.mem ∧ t.prog = s.prog := by
  obtain ⟨i, -, runs⟩ := step_eq_next.1 completes
  obtain ⟨-, p, b, ds, -, -, -, rfl⟩ := exec_eq_next.1 runs
  exact ⟨completedState_cfg s p i b ds, completedState_mem s p i b ds,
    completedState_prog s p i b ds⟩

theorem State.wf_iff {s : State} :
    s.wf = true ↔ deviceOk s.cfg = true ∧ s.pc < 2 ^ s.cfg.pcBits ∧ memOk s.cfg s.mem = true ∧
      storeSorted s.prog = true := by
  simp [State.wf, and_assoc]

/-- Settles O30: the device and the memories are kept, and the program counter is a remainder. -/
theorem stepKeepsTheStateWellFormed : Obligations.StepKeepsTheStateWellFormed := by
  intro s t wf completes
  obtain ⟨device, -, mem, prog⟩ := State.wf_iff.1 wf
  obtain ⟨hcfg, hmem, hprog⟩ := step_keeps completes
  have pc : t.pc < 2 ^ s.cfg.pcBits := by
    rw [completedStepAdvancesPcByOne s t completes]
    exact Nat.mod_lt _ (Nat.two_pow_pos _)
  rw [State.wf_iff, hcfg, hmem, hprog]
  exact ⟨device, pc, mem, prog⟩

/-! ## Runs -/

/-- A property of the state that core steps and both agents keep is kept by every run. -/
theorem Run.events_keep {P : State → Prop} (core : ∀ s t, P s → step s = .next t → P t)
    (write : ∀ s a v, P s → P (agentWrite s a v))
    (interrupt : ∀ s after, P s → P (agentInterrupt s after)) (r : Run) (es : List Event)
    (start : P r.state) : P (r.events es).state := by
  induction es generalizing r with
  | nil => exact start
  | cons e rest ih =>
    refine ih (r.event e) ?_
    cases ended : r.ended with
    | true => rwa [Run.event_of_ended ended]
    | false =>
      cases e with
      | core =>
        rw [Run.event, Run.coreStep_of_not_ended ended]
        cases outcome : step r.state with
        | next t => exact core _ t start outcome
        | fault f => exact start
        | refused x => exact start
      | masterWrite a v => simpa [Run.event, ended] using write _ a v start
      | irqAgent after => simpa [Run.event, ended] using interrupt _ after start

/-- A write by another master keeps the form of the state: it stores only where memory is (rules
R23, R33). -/
theorem wf_agentWrite {s : State} (wf : s.wf = true) (a : Addr) (v : Byte) :
    (agentWrite s a v).wf = true := by
  unfold agentWrite
  split
  · exact wf
  · obtain ⟨device, pc, mem, prog⟩ := State.wf_iff.1 wf
    rw [State.wf_iff, dataWrite_cfg, dataWrite_pc, dataWrite_prog]
    exact ⟨device, pc, memOk_dataWrite s a v mem, prog⟩

theorem wf_agentInterrupt {s : State} (wf : s.wf = true) (after : State) :
    (agentInterrupt s after).wf = true := by
  unfold agentInterrupt
  split
  · exact wf
  · split
    next moved =>
      obtain ⟨-, -, wfAfter⟩ := moved
      exact wfAfter
    next => exact wf

/-- Settles O32: all three kinds of event keep the form of the state. -/
theorem runsKeepTheStateWellFormed : Obligations.RunsKeepTheStateWellFormed := by
  intro r es wf
  exact Run.events_keep (P := fun s => s.wf = true) stepKeepsTheStateWellFormed
    (fun _ a v wf => wf_agentWrite wf a v) (fun _ after wf => wf_agentInterrupt wf after) r es wf

/-- Settles O31: the reset state is one state, checked by evaluation. -/
theorem resetStateIsWellFormed : Obligations.ResetStateIsWellFormed := by
  unfold Obligations.ResetStateIsWellFormed
  decide

/-- State `t` is on the device of `s` and has its memories. -/
def SameMemories (s t : State) : Prop :=
  t.cfg = s.cfg ∧ t.mem = s.mem ∧ t.prog = s.prog

/-- Settles O35: core steps keep the memories, and absent agents change nothing. -/
theorem memoryIsConstantWithoutAgents : Obligations.MemoryIsConstantWithoutAgents := by
  intro r es noMasters noInterrupts a
  have kept : SameMemories r.state (r.events es).state := by
    refine Run.events_keep ?core ?write ?interrupt r es ⟨rfl, rfl, rfl⟩
    case core =>
      rintro s t ⟨cfg, mem, prog⟩ completes
      obtain ⟨hcfg, hmem, hprog⟩ := step_keeps completes
      exact ⟨hcfg.trans cfg, hmem.trans mem, hprog.trans prog⟩
    case write =>
      rintro s a v ⟨cfg, kept⟩
      have absent : s.cfg.otherMasters = .absent := by rw [cfg, noMasters]
      rw [agentWrite, absent]
      exact ⟨cfg, kept⟩
    case interrupt =>
      rintro s after ⟨cfg, kept⟩
      have absent : s.cfg.irqModel = .absent := by rw [cfg, noInterrupts]
      rw [agentInterrupt, absent]
      exact ⟨cfg, kept⟩
  obtain ⟨-, mem, prog⟩ := kept
  exact ⟨by rw [State.memByte, State.memByte, mem], progRead_congr prog a⟩

/-- Settles O34: a final run has ended, and an ended run is changed by no event. -/
theorem runsEndAtEndPc : Obligations.RunsEndAtEndPc := by
  intro s st es
  have final_iff : (⟨s, st⟩ : Run).final = true ↔ s.pc = s.cfg.endPc ∧ st = none := by
    simp [Run.final, and_comm]
  refine ⟨rfl, final_iff, fun final => Run.events_of_ended ?_ es⟩
  rw [Run.ended, final, Bool.or_true]

/-! ## Registers that hold values -/

theorem registersHold_setReg {s : State} (hold : RegistersHold s) (i : RegIdx) (v : Byte) :
    RegistersHold (s.setReg i v) := by
  refine ⟨fun j => ?_, hold.2⟩
  rw [State.reg_setReg]
  split_ifs
  · exact nofun
  · exact hold.1 j

theorem registersHold_ptrSet {s : State} (hold : RegistersHold s) (v : Addr) :
    RegistersHold (ptrSet s v) := by
  refine ⟨fun j => ?_, ?_⟩
  · rw [reg_ptrSet]
    split_ifs
    · exact nofun
    · exact nofun
    · exact hold.1 j
  · rw [ptrSet_rampz]
    split_ifs
    · exact nofun
    · exact hold.2

theorem registersHold_stateAtRead {s : State} (hold : RegistersHold s) (p : Addr) (i : Instr) :
    RegistersHold (stateAtRead s p i) := by
  cases i with
  | ldZDec d => exact registersHold_ptrSet hold _
  | _ => exact hold

theorem registersHold_writesAfterRead {s : State} (hold : RegistersHold s) (w : PtrWidth)
    (p : Addr) (i : Instr) (b : Byte) : RegistersHold (writesAfterRead w p i b s) := by
  have written := registersHold_setReg hold i.dest b
  cases i with
  | ldZInc d => exact registersHold_ptrSet written _
  | _ => exact written

/-- A pointer all of whose cells hold values lacks none. -/
theorem not_pointerLacks_of_registersHold {s : State} (hold : RegistersHold s) (l : Location) :
    ¬ PointerLacks s l := by
  intro lacks
  cases lacks with
  | low h => exact hold.1 _ h
  | high _ _ h => exact hold.1 _ h
  | ext _ _ _ h => exact hold.2 h

/-- With every register holding a value, only a memory byte can lack one. -/
theorem mem_of_holdsNoByte {s : State} {a : Addr} {l : Location} (hold : RegistersHold s)
    (empty : HoldsNoByte s a l) : ∃ n, l = .mem n := by
  cases empty with
  | reg _ h => exact absurd h (hold.1 _)
  | rampz _ _ h => exact absurd h hold.2
  | ram _ _ => exact ⟨_, rfl⟩
  | extRam _ _ => exact ⟨_, rfl⟩

/-- Settles O39: every write leaves a value, and of the cells a step reads only memory can lack
one. -/
theorem registersWithValuesStayReadable : Obligations.RegistersWithValuesStayReadable := by
  intro s hold
  refine ⟨fun t completes => ?_, fun l faults => ?_⟩
  · obtain ⟨i, -, runs⟩ := step_eq_next.1 completes
    obtain ⟨-, p, b, ds, -, -, -, rfl⟩ := exec_eq_next.1 runs
    have read : RegistersHold ((stateAtRead s p i).setDevState ds) :=
      registersHold_stateAtRead hold p i
    exact registersHold_writesAfterRead read _ p i b
  · obtain ⟨w, i, -, -, -, cause⟩ := faultsHaveOnlyTheNamedCauses s _ faults
    rcases cause with ⟨-, other⟩ | ⟨-, ⟨l', lacks, -⟩ | ⟨p, l', -, -, empty, same⟩⟩
    · cases other
    · exact absurd lacks (not_pointerLacks_of_registersHold hold l')
    · cases same
      exact mem_of_holdsNoByte (registersHold_stateAtRead hold p i) empty

/-- Settles O38: each register of the reset state is a literal 0. -/
theorem modelResetHoldsZeroInEveryRegister : Obligations.ModelResetHoldsZeroInEveryRegister := by
  refine ⟨fun j => ?_, rfl, rfl, rfl, fun a => rfl⟩
  simp [State.reg, State.reset]

end Sys2Proof.Machine
end

section
/-! SUPPORT. What another master's write does to the data space, and the load that follows it (rules
R4, R33). -/

namespace Sys2Proof.Machine

/-- On a device with another master, in a run that goes on, its write is a write of the data
space. -/
theorem Run.event_masterWrite {s : State} (present : s.cfg.otherMasters = .platform)
    (goesOn : (Run.launch s).ended = false) (a : Addr) (v : Byte) :
    (Run.launch s).event (.masterWrite a v) = Run.launch (dataWrite s a v) := by
  have state : (Run.launch s).state = s := rfl
  rw [Run.event, goesOn, state, agentWrite, present]
  rfl

/-- The location keeps a byte written to it: a register, RAMPZ, or a byte of SRAM. -/
def KeepsByte (c : Device) (a : Addr) : Prop :=
  (∃ i, kindAt c a = .reg i) ∨ (∃ k, kindAt c a = .io k ∧ isRampzAddr c a = true) ∨
    isMemKind (kindAt c a) = true

theorem memByte_dataWrite {s : State} {a : Addr} (sram : isMemKind (kindAt s.cfg a) = true)
    (v : Byte) : (dataWrite s a v).memByte a.toNat = some v := by
  rw [State.memByte, dataWrite_mem, if_pos sram, storeRead_storeWrite_self]

theorem memByte_dataWrite_other {s : State} {a : Addr} {n : Nat} (v : Byte)
    (other : isMemKind (kindAt s.cfg a) = false ∨ n ≠ a.toNat) :
    (dataWrite s a v).memByte n = s.memByte n := by
  rw [State.memByte, dataWrite_mem, State.memByte]
  split_ifs with sram
  · rcases other with none | other
    · exact absurd sram (by simp [none])
    · exact storeRead_storeWrite_other _ _ other
  · rfl

theorem rampz_dataWrite {s : State} {a : Addr} {k : Nat} (kind : kindAt s.cfg a = .io k)
    (isRampz : isRampzAddr s.cfg a = true) (v : Byte) :
    (dataWrite s a v).rampz = .holds v ∧ (dataWrite s a v).devState = s.devState := by
  rw [dataWrite_rampz, dataWrite_devState, kind]
  exact ⟨if_pos isRampz, if_pos isRampz⟩

/-- A read of a location that keeps its byte returns the byte written there. -/
theorem readsByte_dataWrite {s : State} {a : Addr} (keeps : KeepsByte s.cfg a) (v : Byte) :
    ReadsByte (dataWrite s a v) a v (dataWrite s a v).devState := by
  have cfg := dataWrite_cfg s a v
  rcases keeps with ⟨i, kind⟩ | ⟨k, kind, isRampz⟩ | sram
  · exact .reg (by rw [cfg, kind]) (by rw [reg_dataWrite, if_pos kind])
  · obtain ⟨written, -⟩ := rampz_dataWrite kind isRampz v
    exact .rampz (by rw [cfg, kind]) (by rwa [cfg]) written
  · have written := memByte_dataWrite sram v
    cases kind : kindAt s.cfg a <;> rw [kind] at sram
    case ram => exact .ram (by rw [cfg, kind]) written
    case extRam => exact .extRam (by rw [cfg, kind]) written
    all_goals cases sram

/-- A load from the location just written returns the byte. -/
theorem exec_ldZ_dataWrite {s : State} {a : Addr} {v : Byte} (keeps : KeepsByte s.cfg a)
    (pointer : PointerIs (dataWrite s a v) a) (d : RegIdx) :
    ∃ t, exec (.ldZ d) (dataWrite s a v) = .next t ∧ t.reg d = .holds v := by
  obtain ⟨t, completes, dest, -⟩ :=
    ldZLoadsTheByteAtThePointer d _ a v _ pointer (readsByte_dataWrite keeps v)
  exact ⟨t, completes, dest⟩

/-- Settles O42: one clause per kind of location, and the fields the write does not reach. -/
theorem masterWritesReachTheDataSpace : Obligations.MasterWritesReachTheDataSpace := by
  intro s a v d present goesOn
  refine ⟨dataWrite s a v, Run.event_masterWrite present goesOn a v,
    fun i kind => by rw [reg_dataWrite, if_pos kind],
    fun k kind isRampz => rampz_dataWrite kind isRampz v,
    fun sram => memByte_dataWrite sram v, fun kind => ?noEffect,
    fun keeps pointer => exec_ldZ_dataWrite keeps pointer d,
    fun k kind notRampz => ?platform, fun notIo => ?notIo,
    fun j other => by rw [reg_dataWrite, if_neg other],
    fun c other => memByte_dataWrite_other v other, dataWrite_pc s a v, dataWrite_sreg s a v,
    dataWrite_cfg s a v, progRead_congr (dataWrite_prog s a v)⟩
  case noEffect =>
    rcases kind with kind | kind <;> rw [dataWrite, kind]
  case platform =>
    rw [dataWrite_rampz, dataWrite_devState, kind]
    simp [notRampz]
  case notIo =>
    rw [dataWrite_rampz, dataWrite_devState]
    cases kind : kindAt s.cfg a with
    | io k => exact absurd kind (notIo k)
    | _ => exact ⟨rfl, rfl⟩

theorem dataWrite_eq_memWrite {s : State} {a : Addr} (sram : isMemKind (kindAt s.cfg a) = true)
    (v : Byte) : dataWrite s a v = s.memWrite a.toNat v := by
  cases kind : kindAt s.cfg a <;> rw [kind] at sram
  case ram | extRam => rw [dataWrite, kind]
  all_goals cases sram

/-- A write to SRAM leaves the pointer. -/
theorem pointerIs_dataWrite_sram {s : State} {a p : Addr}
    (sram : isMemKind (kindAt s.cfg a) = true) (v : Byte) (pointer : PointerIs s p) :
    PointerIs (dataWrite s a v) p := by
  rw [dataWrite_eq_memWrite sram]
  exact (pointerIs_congr (s := s) rfl rfl rfl rfl p).2 pointer

/-- Settles O36: the write to SRAM leaves the pointer, and no load writes memory. -/
theorem loadsReturnTheLatestMasterWrite : Obligations.LoadsReturnTheLatestMasterWrite := by
  intro s a v d present sram goesOn pointer
  obtain ⟨t, completes, dest⟩ :=
    exec_ldZ_dataWrite (.inr (.inr sram)) (pointerIs_dataWrite_sram sram v pointer) d
  refine ⟨dataWrite s a v, t, Run.event_masterWrite present goesOn a v, completes, dest,
    fun c other => ?_⟩
  rw [(exec_keepsRest completes).memory, memByte_dataWrite_other v (.inr other)]

end Sys2Proof.Machine
end

section
/-! SUPPORT. What the parameters of an accepted device satisfy (rules R4, R5), which devices are
instantiated, and the cycle table (rules R71, R72). -/

namespace Sys2Proof.Machine

/-! ## The data map -/

/-- A mapped address stands in some region of the map. -/
theorem exists_region_of_mapAt {m : List Region} {a : Nat} (mapped : mapAt m a ≠ .unmapped) :
    ∃ r ∈ m, r.base ≤ a ∧ a < r.base + r.size ∧ mapAt m a = regionKindAt r.kind (a - r.base) := by
  induction m with
  | nil => exact absurd rfl mapped
  | cons r rest ih =>
    unfold mapAt at mapped ⊢
    split_ifs at mapped ⊢ with inside
    · exact ⟨r, List.mem_cons_self, inside.1, inside.2, rfl⟩
    · obtain ⟨r', mem, found⟩ := ih mapped
      exact ⟨r', List.mem_cons_of_mem r mem, found⟩

/-- A region that is not empty ends within the size of the data space. -/
theorem region_end_le_dataBytes {m : List Region} {r : Region} (mem : r ∈ m)
    (nonempty : r.size ≠ 0) : r.base + r.size ≤ dataBytes m := by
  induction m with
  | nil => cases mem
  | cons q rest ih =>
    unfold dataBytes
    rcases List.mem_cons.1 mem with rfl | mem
    · rw [if_neg nonempty]
      exact Nat.le_max_left _ _
    · split_ifs
      · exact ih mem
      · exact (ih mem).trans (Nat.le_max_right _ _)

theorem lt_dataBytes_of_mapped {m : List Region} {a : Nat} (mapped : mapAt m a ≠ .unmapped) :
    a < dataBytes m := by
  obtain ⟨r, mem, above, below, -⟩ := exists_region_of_mapAt mapped
  exact below.trans_le (region_end_le_dataBytes mem (by omega))

/-- Only a flash region holds flash. -/
theorem kind_of_regionKindAt_flash {k : RegionKind} {off : Nat}
    (flash : regionKindAt k off = .flash) : k = .flash := by
  cases k with
  | flash => rfl
  | regs first =>
    rw [regionKindAt] at flash
    split_ifs at flash
  | _ => cases flash

/-! ## The constraints -/

/-- The constraints of rules R4 and R5, one by one. -/
structure DeviceConstraints (c : Device) : Prop where
  forms : c.core = .avr8l → .iiii ∉ c.forms
  width : ptrWidthFor (dataBytes c.dataMap) (2 * c.progWords) = some c.ptrWidth
  rampz : rampzOk c = true
  flash : ∀ r ∈ c.dataMap, r.kind = .flash → c.core = .avr8l

theorem deviceConstraints_of_deviceOk {c : Device} (ok : deviceOk c = true) :
    DeviceConstraints c := by
  simp only [deviceOk, ptrWidthOk, Bool.and_eq_true, List.all_eq_true, decide_eq_true_eq] at ok
  obtain ⟨⟨⟨⟨⟨forms, width⟩, -⟩, rampz⟩, flash⟩, -⟩ := ok
  exact ⟨forms, width, rampz, flash⟩

theorem isSome_rampzAddr_iff {c : Device} (ok : rampzOk c = true) :
    c.rampzAddr.isSome = true ↔ c.ptrWidth = .w24 := by
  unfold rampzOk at ok
  cases address : c.rampzAddr with
  | none => simpa [address] using ok
  | some a =>
    simp only [address, Bool.and_eq_true, decide_eq_true_eq] at ok
    obtain ⟨⟨wide, -⟩, -⟩ := ok
    simp [wide]

theorem core_of_kindAt_flash {c : Device}
    (regions : ∀ r ∈ c.dataMap, r.kind = .flash → c.core = .avr8l) {a : Addr}
    (flash : kindAt c a = .flash) : c.core = .avr8l := by
  have mapped : mapAt c.dataMap a.toNat ≠ .unmapped := by
    rw [show mapAt c.dataMap a.toNat = .flash from flash]
    exact nofun
  obtain ⟨r, mem, -, -, kind⟩ := exists_region_of_mapAt mapped
  exact regions r mem (kind_of_regionKindAt_flash (kind.symm.trans flash))

/-! ## The pointer width -/

theorem ptrWidthFor_eq_none_iff (d p : Nat) :
    ptrWidthFor d p = none ↔ d ≤ 256 ∧ 65536 < p := by
  unfold ptrWidthFor
  split_ifs <;> simp <;> omega

/-- What the width that rule R4 gives says of the two sizes. -/
theorem ptrWidthFor_eq_some {d p : Nat} {w : PtrWidth} (given : ptrWidthFor d p = some w) :
    (w = .w8 ↔ d ≤ 256) ∧ (w = .w24 ↔ 65536 < d ∨ 65536 < p) := by
  unfold ptrWidthFor at given
  split_ifs at given <;> obtain rfl := Option.some.inj given <;> simp <;> omega

/-- Settles O40: the constraints on forms, RAMPZ and flash are checks of the device; those on sizes
are read off the function that gives the width. -/
theorem admittedDevicesMeetTheConstraints : Obligations.AdmittedDevicesMeetTheConstraints := by
  refine ⟨fun c ok => ?_, ptrWidthFor_eq_none_iff⟩
  obtain ⟨forms, width, rampz, flash⟩ := deviceConstraints_of_deviceOk ok
  obtain ⟨w8, w24⟩ := ptrWidthFor_eq_some width
  refine ⟨fun avr8l => ⟨forms avr8l, hasForm_eq_false_iff.2 (.inl (forms avr8l))⟩,
    isSome_rampzAddr_iff rampz, fun a => core_of_kindAt_flash flash,
    fun a => lt_dataBytes_of_mapped, w8, w24, fun both => ?_⟩
  rw [(ptrWidthFor_eq_none_iff _ _).2 both] at width
  cases width

/-- More than 64K bytes of program memory leave pointer width 24 alone (rule R4). -/
theorem deviceOk_eq_false_of_large_program {c : Device} (narrow : c.ptrWidth ≠ .w24)
    (large : 65536 < 2 * c.progWords) : deviceOk c = false := by
  refine Bool.eq_false_iff.2 fun ok => narrow ?_
  obtain ⟨-, w24⟩ := ptrWidthFor_eq_some (deviceConstraints_of_deviceOk ok).width
  exact w24.2 (.inr large)

/-! ## Instantiation -/

theorem instantiate_of_not_wf {s : State} (notWf : s.wf = false) : Run.instantiate s = none := by
  simp [Run.instantiate, notWf]

theorem instantiate_of_wf {s : State} (wf : s.wf = true) :
    Run.instantiate s = some (Run.launch s) := if_pos wf

theorem instantiate_of_not_deviceOk {s : State} (bad : deviceOk s.cfg = false) :
    Run.instantiate s = none :=
  instantiate_of_not_wf (by simp [State.wf, bad])

/-- Settles O43: instantiation is the check of the form, which holds the device to its
constraints. -/
theorem unadmittedDevicesAreNotInstantiated : Obligations.UnadmittedDevicesAreNotInstantiated := by
  intro s
  refine ⟨instantiate_of_not_deviceOk, fun narrow large =>
    instantiate_of_not_deviceOk (deviceOk_eq_false_of_large_program narrow large),
    instantiate_of_wf, fun r started => ?_⟩
  cases wf : s.wf with
  | true =>
    obtain rfl : Run.launch s = r :=
      Option.some.inj ((instantiate_of_wf wf).symm.trans started)
    exact ⟨rfl, rfl, rfl⟩
  | false => cases (instantiate_of_not_wf wf).symm.trans started

/-! ## The cycle table -/

theorem extraCycles_avr (k : LocKind) : extraCycles .avr k = 0 := by cases k <;> rfl

theorem extraCycles_xmega (k : LocKind) :
    extraCycles .xmega k = if k = .ram then 1 else 0 := by cases k <;> rfl

theorem extraCycles_avr8l (k : LocKind) :
    extraCycles .avr8l k = if k = .flash then 1 else 0 := by cases k <;> rfl

/-- The cycles of a form with a number in the table, where a footnote adds one at one kind of
location (rule R72). -/
theorem cycles_eq {c : CoreClass} {f : Form} {k extra : LocKind} {n : Nat}
    (base : baseCycles c f = some n) (footnote : extraCycles c k = if k = extra then 1 else 0) :
    cycles c f k = some (if k = extra then n + 1 else n) := by
  rw [cycles, base, Option.map_some, footnote]
  split_ifs <;> rfl

/-- Settles O41: each cell of the table, with the footnote of its core. -/
theorem cyclesFollowTheTable : Obligations.CyclesFollowTheTable := by
  intro k
  have xmega := extraCycles_xmega k
  have avr8l := extraCycles_avr8l k
  refine ⟨fun f => ?_, fun f hf => ?_, fun f hf => ?_, fun f hf => ?_, cycles_eq rfl avr8l, rfl⟩
  · rw [cycles, baseCycles, Option.map_some, extraCycles_avr]
  · rcases hf with rfl | rfl <;> exact cycles_eq rfl xmega
  · rcases hf with rfl | rfl <;> exact cycles_eq rfl xmega
  · rcases hf with rfl | rfl <;> exact cycles_eq rfl avr8l

end Sys2Proof.Machine
end
